-- ==== Sys2Proof/Word.lean ====
section
/-! DEFINITION. The word types of the engine (spec 00_scope.md R10-R13). Only the types: every operation on
them stands in a file under Machine/, where a later repair can mend it. -/

namespace Sys2Proof

/-- A byte (R10). -/
abbrev Byte := BitVec 8

/-- A nibble, the S-box's operand (R10). -/
abbrev Nibble := BitVec 4

/-- A 32-bit register word, the width of every HOST access and of a command word (R52, R80). -/
abbrev Word := BitVec 32

/-- A Block or RoundKey: 16 bytes, read as the 128-bit big-endian integer of R12, so that byte 0 is the most
significant byte and bit position `p` of the spec is integer bit `127 - p`. -/
abbrev Block := BitVec 128

/-- A Key: 8 bytes, read as the source's big-endian 64-bit integer (R13, R34). -/
abbrev Key := BitVec 64

/-- The five round keys `RK[0..4]` (R30), also the shape of the round-constant ROM (R110). -/
abbrev RoundKeys := Vector Block 5

end Sys2Proof
end

