-- ==== Sys2Proof/Machine/Bits.lean ====
section
/-! DEFINITION. Bit, byte and word order (00_scope.md R11-R13, 20_memory.md R53). -/

namespace Sys2Proof.Machine

/-- `bit(b, p)`: bit position `p` of a block, most significant bit of byte 0 first (R12). -/
def blockBit (b : Block) (p : Nat) : Bool := b.getMsbD p

/-- The block with bit position `p` equal to `v` and every other bit 0 (R12). -/
def bitBlock (p : Nat) (v : Bool) : Block := (BitVec.ofBool v).setWidth 128 <<< (127 - p)

/-- Byte `b[j]` of a block (R11, R12). -/
def blockByte (b : Block) (j : Nat) : Byte := b.extractLsb' (120 - 8 * j) 8

/-- The 16 bytes of a block, byte 0 first. -/
def blockBytes (b : Block) : List Byte := (List.range 16).map (blockByte b)

/-- The block whose bytes are the given 16, byte 0 first. -/
def blockOfBytes (d : List Byte) : Block := d.foldl (fun acc x => acc <<< 8 ||| x.setWidth 128) 0#128

/-- `be64(k)`: the 8 bytes of a key, big-endian (R13). -/
def be64 (k : Key) : List Byte := (List.range 8).map fun j => k.extractLsb' (56 - 8 * j) 8

/-- `int64(key)`: the integer whose big-endian encoding the 8 bytes are (R13). -/
def int64 (d : List Byte) : Key := d.foldl (fun acc x => acc <<< 8 ||| x.setWidth 64) 0#64

/-- `rotl64(k, r)` (R13). -/
def rotl64 (k : Key) (r : Nat) : Key := k.rotateLeft r

/-- Byte lane `j` of a register word: lane 0 is bits 31:24 (R53). -/
def lane (v : Word) (j : Nat) : Byte := v.extractLsb' (24 - 8 * j) 8

/-- The register word with the given byte lanes 0..3 (R53). -/
def wordOfLanes (b0 b1 b2 b3 : Byte) : Word := b0 ++ b1 ++ b2 ++ b3

/-- The four bytes of a register word, lane 0 first (R53). -/
def wordBytes (v : Word) : List Byte := [lane v 0, lane v 1, lane v 2, lane v 3]

/-- Word `w` (0..3) of a block: bytes `4w .. 4w + 3` (R35, R53). -/
def blockWord (b : Block) (w : Nat) : Word := b.extractLsb' (96 - 32 * w) 32

/-- A block with word `w` (0..3) replaced. -/
def setBlockWord (b : Block) (w : Nat) (v : Word) : Block :=
  (if w = 0 then v else blockWord b 0) ++ (if w = 1 then v else blockWord b 1) ++
    (if w = 2 then v else blockWord b 2) ++ (if w = 3 then v else blockWord b 3)

/-- Word `w` (0..1) of the key: KEY0 holds KEY[0..3], KEY1 holds KEY[4..7] (R34). -/
def keyWord (k : Key) (w : Nat) : Word := k.extractLsb' (32 - 32 * w) 32

/-- The key with word `w` (0..1) replaced. -/
def setKeyWord (k : Key) (w : Nat) (v : Word) : Key :=
  (if w = 0 then v else keyWord k 0) ++ (if w = 1 then v else keyWord k 1)

end Sys2Proof.Machine
end

