-- ==== Sys2Proof/Config.lean ====
section
/-! DEFINITION. What an implementation of the engine fixes (spec 00_scope.md R9), and the free values that the
spec leaves open. -/

namespace Sys2Proof

/-- The parameters of one engine (R9). No transition changes them. -/
structure Config where
  /-- `BASE`, the bus address of register offset 0: a multiple of 0x4000. -/
  base : Nat
  /-- `BUFSZ`, the bytes in IBUF and in OBUF each: a multiple of 16 from 16 to 4096. -/
  bufSize : Nat
  /-- `RC[0..4]`, the round-constant ROM. -/
  rc : RoundKeys
  deriving DecidableEq, Repr

/-- The round constants of R110: the first 16 bytes of SHA-256 of the one byte `i` (decision D6; UNVERIFIED
against the repository, log 17). -/
def Config.sha256RoundConstants : RoundKeys :=
  #v[0x6e340b9cffb37a989ca544e6bb780a2c#128,
     0x4bf5122f344554c53bde2ebb8cd2b7e3#128,
     0xdbc1b4c900ffe48d575b5da5c6380401#128,
     0x084fed08b978af4d7d196a7446a86b58#128,
     0xe52d9c508c502347344d8c07ad91cbd6#128]

/-- The defaults of R9. DESIGN CHOICE (log 9): `BASE`, which R9 leaves OPEN, is 0 here; every statement that
is not about the reset state ranges over all configurations. -/
def Config.default : Config :=
  { base := 0, bufSize := 4096, rc := Config.sha256RoundConstants }

/-- The legal values of R9. -/
def Config.wf (c : Config) : Bool :=
  c.base % 0x4000 == 0 && c.bufSize % 16 == 0 && 16 ≤ c.bufSize && c.bufSize ≤ 4096

/-- The value a HOST read draws where the spec says 'unspecified' (93_implementation_defined.md U2, U3, U5):
the `n`-th draw. A free value: no body, so nothing can be proved of it (log 4). -/
opaque Config.freeWord : Nat → Word

end Sys2Proof
end

