-- ==== Sys2Proof/Machine/State.lean ====
section
/-! DEFINITION. The state of the engine, everything the spec gives it (10_state.md R20-R43), the events that
reach it, its faults and refusals, and its reset value. Plain data throughout. -/

namespace Sys2Proof.Machine

/-- The error codes of 60_exceptions.md R220. Codes 8-15 are never reported, so they are no constructors
(93_implementation_defined.md U9, log 18). -/
inductive ErrCode where
  | noError
  | invalidKeyLength
  | invalidBlockLength
  | invalidCiphertextLength
  | invalidPadding
  | capacity
  | noRoundKeys
  | illegalCommand
  deriving DecidableEq, Repr

/-- Why the bus refuses an access (20_memory.md R56-R58). -/
inductive BusError where
  /-- The address is outside the engine's window `BASE .. BASE + 0x4000` (R50, log 11). -/
  | outsideWindow
  /-- The access is not 32 bits wide (R52). -/
  | wrongWidth
  /-- The offset is not a multiple of 4 (R52). -/
  | misaligned
  /-- The offset is in a reserved range of R50 (R57). -/
  | reserved
  /-- The offset is in a buffer window at or beyond BUFSZ (R58). -/
  | unbacked
  /-- A write to ID, OLEN, an RK word or an OBUF word (R57). -/
  | readOnly
  deriving DecidableEq, Repr

/-- What the bus answers to one HOST access. -/
inductive Reply where
  /-- No access has been made. -/
  | none
  /-- A read's data (R54). -/
  | data (v : Word)
  /-- A write was performed (R55). -/
  | written
  /-- The bus-error response of R56. -/
  | error (e : BusError)
  /-- The access was made while reset is asserted and is not performed (R260). -/
  | notPerformed
  deriving DecidableEq, Repr

/-- One HOST access (R14, R50, R52): a bus address, a width in bits, and for a write its value. -/
inductive Access where
  | read (width addr : Nat)
  | write (width addr : Nat) (v : Word)
  deriving DecidableEq, Repr

/-- One transition of the single interleaving of R60 and R225 (log 5). -/
inductive Event where
  /-- HOST makes one access. -/
  | host (a : Access)
  /-- ENGINE takes its completion step, if it has one (R202, R205). -/
  | complete
  /-- The reset input is asserted (R260). -/
  | assertReset
  /-- The reset input is released. -/
  | releaseReset
  deriving DecidableEq, Repr

/-- The record of 10_state.md R43: which words of KEY and STATE something has written since reset (log 2).
A word is always written whole (R55), so one bit a word is enough. -/
structure Written where
  key0 : Bool
  key1 : Bool
  state0 : Bool
  state1 : Bool
  state2 : Bool
  state3 : Bool
  deriving DecidableEq, Repr

/-- The state of the engine. -/
structure State where
  /-- The parameters of R9; no transition changes them. -/
  cfg : Config
  /-- CMDL, the latched command word (R38). -/
  cmdl : Word
  /-- STATUS.BUSY (R25). -/
  busy : Bool
  /-- STATUS.DONE (R26). -/
  done : Bool
  /-- STATUS.ERR (R27). -/
  err : Bool
  /-- STATUS.OVR (R28). -/
  ovr : Bool
  /-- STATUS.KV (R29). -/
  kv : Bool
  /-- STATUS.ERRCODE (R27). -/
  errcode : ErrCode
  /-- IRQEN.IE (R31). -/
  ie : Bool
  /-- OLEN bits 15:0 (R32). -/
  olen : BitVec 16
  /-- KEYLEN bits 7:0 (R33). -/
  keylen : Byte
  /-- KEY[0..7] = KEY0:KEY1 (R34). -/
  key : Key
  /-- STATE[0..15] = STATE0:STATE1:STATE2:STATE3 (R35). -/
  stateReg : Block
  /-- The RK file RK[0..4] (R30). -/
  rk : RoundKeys
  /-- IBUF and OBUF (R36, R37): the bytes that hold a value, keyed by register-space offset, addresses strictly
  rising. An unlisted byte has no value (R43, log 3). -/
  mem : List Host.Cell
  /-- The level of the reset input: asserted or not (R260, log 10). -/
  rst : Bool
  /-- MODEL's own: the record of R43 (log 2). -/
  written : Written
  /-- MODEL's own: the events still to happen, the next one first (log 5). -/
  pending : List Event
  /-- MODEL's own: what the bus answered to HOST's last access (log 15). -/
  reply : Reply
  /-- MODEL's own: how many unspecified values HOST reads have drawn (log 4). -/
  draws : Nat
  deriving DecidableEq, Repr

/-- Why the machine stops. -/
inductive Fault where
  /-- Raised by a HOST access that the bus refuses (R56, U7). Safe: the engine's state is unchanged by such an
  access (`State.bus`), and a correct program makes none. -/
  | busError (e : BusError)
  /-- Raised by a HOST write to KEY0, KEY1, KEYLEN, STATE0..3 or IBUF while BUSY = 1 (R264, U4). Safe: every
  output of the running command would be unspecified. -/
  | inputWriteWhileBusy
  /-- Raised by a command that reads an IBUF byte nothing has written since reset (R43, U3). Safe: the byte
  holds no defined value. -/
  | unwrittenInput
  deriving DecidableEq, Repr

/-- Why an instruction has no meaning. -/
inductive Refusal where
  /-- Raised by no instruction of this model: every row of the opcode table has its meaning. Safe. -/
  | notModelled (mnemonic : String)
  deriving DecidableEq, Repr

/-- The state right after reset (10_state.md R42, 70_reset_and_hazards.md R260, R261). KEY, STATE, RK and CMDL,
which R42 leaves unspecified, hold 0 (DESIGN CHOICE, log 1); IBUF and OBUF hold nothing. -/
def State.reset : State :=
  { cfg := Config.default
    cmdl := 0#32
    busy := false
    done := false
    err := false
    ovr := false
    kv := false
    errcode := .noError
    ie := false
    olen := 0#16
    keylen := 0#8
    key := 0#64
    stateReg := 0#128
    rk := #v[0#128, 0#128, 0#128, 0#128, 0#128]
    mem := []
    rst := false
    written := ⟨false, false, false, false, false, false⟩
    pending := []
    reply := .none
    draws := 0 }

end Sys2Proof.Machine
end

