-- ==== Sys2Proof/Machine/Cipher.lean ====
section
/-! DEFINITION. The cipher's pure functions: substitution and permutation layers, key schedule, rounds and block
transforms (40_primitives.md R100-R113, 41_block.md R140-R151). Total functions with no state (00_scope.md R15). -/

namespace Sys2Proof.Machine

/-- The S-box ROM `S` (R100). -/
def sboxTable : List Nat := [12, 5, 6, 11, 9, 0, 10, 13, 3, 14, 15, 8, 4, 7, 1, 2]

/-- The inverse S-box ROM `SI` (R101). -/
def invSboxTable : List Nat := [5, 14, 15, 8, 12, 1, 2, 13, 11, 4, 6, 3, 0, 7, 9, 10]

/-- `S[x]` (R100). -/
def sbox (x : Nibble) : Nibble := BitVec.ofNat 4 (sboxTable.getD x.toNat 0)

/-- `SI[y]` (R101). -/
def invSbox (y : Nibble) : Nibble := BitVec.ofNat 4 (invSboxTable.getD y.toNat 0)

/-- Both nibbles of a byte through one table, each on its own (R102). -/
def mapNibbles (f : Nibble → Nibble) (x : Byte) : Byte := f (x.extractLsb' 4 4) ++ f (x.extractLsb' 0 4)

/-- `sub(b)`, the substitution layer (R102). -/
def sub (b : Block) : Block := blockOfBytes ((blockBytes b).map (mapNibbles sbox))

/-- `isub(b)`, the inverse substitution layer (R103). -/
def isub (b : Block) : Block := blockOfBytes ((blockBytes b).map (mapNibbles invSbox))

/-- `PERMTAB[i]`, the P wiring (R104). -/
def permTab (i : Nat) : Nat := if i = 127 then 127 else (i * 13) % 127

/-- `IPERMTAB[j]`, the inverse P wiring (R105). -/
def ipermTab (j : Nat) : Nat := if j = 127 then 127 else (j * 88) % 127

/-- `perm(b)`: the bit at position `i` goes to position `PERMTAB[i]` (R106). -/
def perm (b : Block) : Block :=
  (List.range 128).foldl (fun out i => out ||| bitBlock (permTab i) (blockBit b i)) 0#128

/-- `iperm(b)`: position `i` takes the bit at position `PERMTAB[i]` (R107). -/
def iperm (b : Block) : Block :=
  (List.range 128).foldl (fun out i => out ||| bitBlock i (blockBit b (permTab i))) 0#128

/-- `RK[i]` of a register file or `RC[i]` of the ROM (R30, R110); `i` is 0..4. -/
def roundKey (rk : RoundKeys) (i : Nat) : Block := rk.toList.getD i 0#128

/-- `RK[i]` of the key schedule: both halves `be64(rotl64(k, 11 i mod 64))`, then XOR `RC[i]` (R111, R112). -/
def expandRound (rc : RoundKeys) (k : Key) (i : Nat) : Block :=
  (rotl64 k ((i * 11) % 64) ++ rotl64 k ((i * 11) % 64)) ^^^ roundKey rc i

/-- `expand(key)` for an 8-byte key, given as its big-endian integer (R112). -/
def expand (rc : RoundKeys) (k : Key) : RoundKeys :=
  #v[expandRound rc k 0, expandRound rc k 1, expandRound rc k 2, expandRound rc k 3, expandRound rc k 4]

/-- The source's `expand(key)` on any byte sequence, with its length check (R112). -/
def expandBytes (rc : RoundKeys) (key : List Byte) : Except ErrCode RoundKeys :=
  if key.length ≠ 8 then .error .invalidKeyLength else .ok (expand rc (int64 key))

/-- `round(s, rk)`: XOR, then substitution, then permutation (R140). -/
def forwardRound (s rk : Block) : Block := perm (sub (s ^^^ rk))

/-- `iround(s, rk)`: inverse permutation, then inverse substitution, then XOR (R141). -/
def inverseRound (s rk : Block) : Block := isub (iperm s) ^^^ rk

/-- `encryptBlockRK(b, RK)`: rounds 0, 1, 2, 3, then whitening with `RK[4]` (R143, R144). -/
def encryptBlockRK (b : Block) (rk : RoundKeys) : Block :=
  [0, 1, 2, 3].foldl (fun s i => forwardRound s (roundKey rk i)) b ^^^ roundKey rk 4

/-- `decryptBlockRK(c, RK)`: whitening, then inverse rounds 3, 2, 1, 0 (R143, R145). -/
def decryptBlockRK (c : Block) (rk : RoundKeys) : Block :=
  [3, 2, 1, 0].foldl (fun s i => inverseRound s (roundKey rk i)) (c ^^^ roundKey rk 4)

/-- The source's keyed `encryptBlock(b, key)`, block length checked first (R146). -/
def encryptBlock (rc : RoundKeys) (b key : List Byte) : Except ErrCode (List Byte) :=
  if b.length ≠ 16 then .error .invalidBlockLength
  else match expandBytes rc key with
    | .error e => .error e
    | .ok rk => .ok (blockBytes (encryptBlockRK (blockOfBytes b) rk))

/-- The source's keyed `decryptBlock(c, key)` (R146). -/
def decryptBlock (rc : RoundKeys) (c key : List Byte) : Except ErrCode (List Byte) :=
  if c.length ≠ 16 then .error .invalidBlockLength
  else match expandBytes rc key with
    | .error e => .error e
    | .ok rk => .ok (blockBytes (decryptBlockRK (blockOfBytes c) rk))

end Sys2Proof.Machine
end

