-- ==== Sys2Proof/Machine/MessageCipher.lean ====
section
/-! DEFINITION. Padding and the message transforms as pure functions over byte sequences (42_message.md
R170-R183). -/

namespace Sys2Proof.Machine

/-- The number of pad bytes for `len` data bytes, 1..16 (R170). -/
def padCount (len : Nat) : Nat := 16 - len % 16

/-- `pad(d)` (R170). -/
def pad (d : List Byte) : List Byte :=
  d ++ List.replicate (padCount d.length) (BitVec.ofNat 8 (padCount d.length))

/-- `unpad(p)`, the three checks of R172 in their order. -/
def unpad (p : List Byte) : Except ErrCode (List Byte) :=
  if p.length = 0 ∨ p.length % 16 ≠ 0 then .error .invalidPadding
  else
    let n := (p.getLastD 0#8).toNat
    if n = 0 ∨ 16 < n then .error .invalidPadding
    else if p.drop (p.length - n) ≠ List.replicate n (BitVec.ofNat 8 n) then .error .invalidPadding
    else .ok (p.take (p.length - n))

/-- The first `n` 16-byte blocks of a byte sequence, in order (R174). -/
def splitBlocks : Nat → List Byte → List Block
  | 0, _ => []
  | n + 1, d => blockOfBytes (d.take 16) :: splitBlocks n (d.drop 16)

/-- A byte sequence block by block through one block transform, the results concatenated in the original order
(R66, R174, R175). -/
def mapBlocks (f : Block → Block) (d : List Byte) : List Byte :=
  (splitBlocks (d.length / 16) d).flatMap fun b => blockBytes (f b)

/-- `encryptMessage` with computed round keys: pad, then every block on its own (R174, R182). -/
def encryptMessageRK (p : List Byte) (rk : RoundKeys) : List Byte :=
  mapBlocks (fun b => encryptBlockRK b rk) (pad p)

/-- `decryptMessage` with computed round keys: every block on its own, then unpad (R175). -/
def decryptMessageRK (c : List Byte) (rk : RoundKeys) : Except ErrCode (List Byte) :=
  unpad (mapBlocks (fun b => decryptBlockRK b rk) c)

/-- The source's `encryptMessage(p, key)` (R174). -/
def encryptMessage (rc : RoundKeys) (p key : List Byte) : Except ErrCode (List Byte) :=
  match expandBytes rc key with
  | .error e => .error e
  | .ok rk => .ok (encryptMessageRK p rk)

/-- The source's `decryptMessage(c, key)`: ciphertext length, then key, then padding (R175). -/
def decryptMessage (rc : RoundKeys) (c key : List Byte) : Except ErrCode (List Byte) :=
  if c.length % 16 ≠ 0 then .error .invalidCiphertextLength
  else match expandBytes rc key with
    | .error e => .error e
    | .ok rk => decryptMessageRK c rk

end Sys2Proof.Machine
end

