-- ==== Sys2Proof/Machine/Ops.lean ====
section
/-! DEFINITION. The named operations over the buffers and registers: memory, the register map, the key-schedule
step, delivering an output, and ending a command, with an error or without (43_control.md R204, R205,
60_exceptions.md R226). -/

namespace Sys2Proof.Machine

/-- The buffers' bytes: (register-space offset, byte), addresses strictly rising. -/
abbrev Memory := List Host.Cell

/-- What the byte at an offset holds; an unlisted byte holds no value (R43, log 3). -/
def Memory.read (m : Memory) (a : Nat) : Option Byte := m.lookup a

/-- The canonical form: addresses strictly rising. An unlisted byte reads as no value, which no entry equals. -/
abbrev Memory.wf (m : Memory) : Prop := m.Pairwise fun c d => c.1 < d.1

/-- Store a byte, keeping the canonical form. -/
def Memory.write (a : Nat) (v : Byte) : Memory → Memory
  | [] => [(a, v)]
  | c :: m =>
    if a < c.1 then (a, v) :: c :: m
    else if a = c.1 then (a, v) :: m
    else c :: Memory.write a v m

/-- Store consecutive bytes. -/
def Memory.writeBytes : Nat → List Byte → Memory → Memory
  | _, [], m => m
  | a, v :: vs, m => Memory.writeBytes (a + 1) vs (Memory.write a v m)

/-- Make the bytes at offsets `lo ≤ a < hi` unspecified: they hold no value (R37, R226). -/
def Memory.forget (lo hi : Nat) (m : Memory) : Memory := m.filter fun c => !(decide (lo ≤ c.1) && decide (c.1 < hi))

/-- The `n` bytes from offset `a` on, if every one holds a value. -/
def Memory.readBytes (m : Memory) : Nat → Nat → Option (List Byte)
  | _, 0 => some []
  | a, n + 1 =>
    match m.read a, Memory.readBytes m (a + 1) n with
    | some v, some vs => some (v :: vs)
    | _, _ => none

/-- The offset of IBUF[0] (R36, R50). -/
def ibufBase : Nat := 0x1000

/-- The offset of OBUF[0] (R37, R50). -/
def obufBase : Nat := 0x2000

/-- The end of the OBUF window (R50). -/
def obufEnd : Nat := 0x3000

/-- The ID register's constant (R22). -/
def idValue : Word := 0x53504E31#32

/-- The code of R220. -/
def ErrCode.code : ErrCode → BitVec 4
  | .noError => 0#4
  | .invalidKeyLength => 1#4
  | .invalidBlockLength => 2#4
  | .invalidCiphertextLength => 3#4
  | .invalidPadding => 4#4
  | .capacity => 5#4
  | .noRoundKeys => 6#4
  | .illegalCommand => 7#4

/-- The completion fields (R205): BUSY <- 0, DONE <- 1, ERRCODE <- code, ERR <- (code ≠ 0). -/
def State.complete (c : ErrCode) (s : State) : State :=
  { s with busy := false, done := true, errcode := c, err := decide (c ≠ .noError) }

/-- OBUF becomes unspecified (R37, R226). -/
def State.forgetOutput (s : State) : State :=
  { s with mem := Memory.forget obufBase obufEnd s.mem }

/-- TAKING AN ERROR, for a command that is not OLEN-writing (R226): only the completion fields. The engine has
no trap entry (R228): the error is reported in STATUS and the engine is idle again. -/
def State.fail (c : ErrCode) (s : State) : State := s.complete c

/-- TAKING AN ERROR, for an OLEN-writing command (R226): OLEN <- 0, OBUF unspecified, the completion fields. -/
def State.failOutput (c : ErrCode) (s : State) : State :=
  { s.forgetOutput with olen := 0#16 }.complete c

/-- Acceptance of a command word (R200), which is also all there is of a return from an error (R229): CMDL <- v,
BUSY <- 1, DONE, ERR and ERRCODE cleared. -/
def State.accept (v : Word) (s : State) : State :=
  { s with cmdl := v, busy := true, done := false, err := false, errcode := .noError }

/-- The key-schedule step of a command: all five round keys at once, KV <- 1 (R30, R112). -/
def State.expandKey (s : State) : State := { s with rk := expand s.cfg.rc s.key, kv := true }

/-- STATE <- b (R35); every word of it is then written (R43). -/
def State.setBlock (b : Block) (s : State) : State :=
  { s with
    stateReg := b
    written := { s.written with state0 := true, state1 := true, state2 := true, state3 := true } }

/-- OBUF[0 .. len) <- out, OBUF beyond unspecified, OLEN <- len (R37, R190-R193). -/
def State.deliver (out : List Byte) (s : State) : State :=
  { s with
    mem := Memory.writeBytes obufBase out (Memory.forget obufBase obufEnd s.mem)
    olen := BitVec.ofNat 16 out.length }

/-- The state while the reset input is asserted (R260): every piece of the engine's state at its reset value.
The parameters, HOST's pending events, its last reply and the count of draws are not the engine's state. -/
def State.afterReset (s : State) : State :=
  { State.reset with
    cfg := s.cfg, rst := true, pending := s.pending, reply := s.reply, draws := s.draws }

end Sys2Proof.Machine
end

