-- ==== Sys2Proof/Machine/Flags.lean ====
section
/-! DEFINITION. The STATUS register and the interrupt output (10_state.md R24-R29, R41, 60_exceptions.md
R231-R232). -/

namespace Sys2Proof.Machine

/-- The STATUS word (R24), given what its KV field reads as. -/
def State.statusWord (s : State) (kv : Bool) : Word :=
  0#20 ++ s.errcode.code ++ 0#3 ++ BitVec.ofBool kv ++ BitVec.ofBool s.ovr ++ BitVec.ofBool s.err ++
    BitVec.ofBool s.done ++ BitVec.ofBool s.busy

/-- A HOST write to STATUS (R24, R55): a 1 in bit 1 clears DONE, a 1 in bit 3 clears OVR. -/
def State.clearStatus (v : Word) (s : State) : State :=
  { s with done := s.done && !v.getLsbD 1, ovr := s.ovr && !v.getLsbD 3 }

/-- A CMD write: accepted when BUSY = 0 (R200), else dropped with OVR <- 1 (R201). -/
def State.issue (v : Word) (s : State) : State :=
  if s.busy then { s with ovr := true } else s.accept v

/-- The interrupt output, `IE and DONE` (R232). -/
def State.irq (s : State) : Bool := s.ie && s.done

end Sys2Proof.Machine
end

