-- ==== Sys2Proof/Machine/Bus.lean ====
section
/-! DEFINITION. HOST bus accesses: the address map, reads, writes, bus errors and hazards (20_memory.md R50-R61,
70_reset_and_hazards.md R264-R266). -/

namespace Sys2Proof.Machine

/-- A location of the address map (R50). -/
inductive Loc where
  | id
  | cmd
  | status
  | irqen
  | olen
  | keylen
  /-- KEY0, KEY1. -/
  | key (w : Nat)
  /-- STATE0..STATE3. -/
  | state (w : Nat)
  /-- Word `w` of RK[i]. -/
  | rk (i w : Nat)
  /-- The word at IBUF[a .. a + 4). -/
  | ibuf (a : Nat)
  /-- The word at OBUF[a .. a + 4). -/
  | obuf (a : Nat)
  deriving DecidableEq, Repr

/-- The address map of R50, for an aligned offset, with the backing of R58. -/
def locate (bufSize off : Nat) : Except BusError Loc :=
  if off = 0x000 then .ok .id
  else if off = 0x004 then .ok .cmd
  else if off = 0x008 then .ok .status
  else if off = 0x00C then .ok .irqen
  else if off = 0x010 then .ok .olen
  else if off = 0x014 then .ok .keylen
  else if off < 0x020 then .error .reserved
  else if off < 0x028 then .ok (.key ((off - 0x020) / 4))
  else if off < 0x030 then .error .reserved
  else if off < 0x040 then .ok (.state ((off - 0x030) / 4))
  else if off < 0x090 then .ok (.rk ((off - 0x040) / 16) ((off - 0x040) % 16 / 4))
  else if off < 0x1000 then .error .reserved
  else if off < 0x2000 then (if off - 0x1000 < bufSize then .ok (.ibuf (off - 0x1000)) else .error .unbacked)
  else if off < 0x3000 then (if off - 0x2000 < bufSize then .ok (.obuf (off - 0x2000)) else .error .unbacked)
  else .error .reserved

/-- The location an access of a width at a bus address selects, or the bus error (R50, R52, R56). -/
def selectLoc (c : Config) (width addr : Nat) : Except BusError Loc :=
  if addr < c.base ∨ c.base + 0x4000 ≤ addr then .error .outsideWindow
  else if width ≠ 32 then .error .wrongWidth
  else if (addr - c.base) % 4 ≠ 0 then .error .misaligned
  else locate c.bufSize (addr - c.base)

/-- Read-only locations, where a write is a bus error (R57). -/
def Loc.readOnly : Loc → Bool
  | .id => true
  | .olen => true
  | .rk _ _ => true
  | .obuf _ => true
  | .cmd => false
  | .status => false
  | .irqen => false
  | .keylen => false
  | .key _ => false
  | .state _ => false
  | .ibuf _ => false

/-- The inputs of commands, which HOST must not write while BUSY = 1 (R264). -/
def Loc.commandInput : Loc → Bool
  | .keylen => true
  | .key _ => true
  | .state _ => true
  | .ibuf _ => true
  | .id => false
  | .cmd => false
  | .status => false
  | .irqen => false
  | .olen => false
  | .rk _ _ => false
  | .obuf _ => false

/-- The buffer word at an offset, a byte that holds no value reading as that lane of `free` (R53, U2, U3). -/
def bufferWord (m : Memory) (a : Nat) (free : Word) : Word :=
  wordOfLanes ((Memory.read m a).getD (lane free 0)) ((Memory.read m (a + 1)).getD (lane free 1))
    ((Memory.read m (a + 2)).getD (lane free 2)) ((Memory.read m (a + 3)).getD (lane free 3))

/-- BusRead of R54; `free` is the value drawn where the spec leaves the value unspecified (U2, U3, and U5 while
BUSY = 1, R265). Reserved bits read 0 all the same (R57, log 8). -/
def State.readLoc (s : State) (l : Loc) (free : Word) : Word :=
  match l with
  | .id => idValue
  | .cmd => 0#32
  | .status => s.statusWord (if s.busy then free.getLsbD 4 else s.kv)
  | .irqen => (BitVec.ofBool s.ie).setWidth 32
  | .olen => (if s.busy then free.setWidth 16 else s.olen).setWidth 32
  | .keylen => s.keylen.setWidth 32
  | .key w => keyWord s.key w
  | .state w => if s.busy then free else blockWord s.stateReg w
  | .rk i w => if s.busy then free else blockWord (roundKey s.rk i) w
  | .ibuf a => bufferWord s.mem (ibufBase + a) free
  | .obuf a => if s.busy then free else bufferWord s.mem (obufBase + a) free

/-- The record of R43 after a write to word `w` of KEY. -/
def Written.setKey (r : Written) (w : Nat) : Written :=
  { r with key0 := r.key0 || w == 0, key1 := r.key1 || w == 1 }

/-- The record of R43 after a write to word `w` of STATE. -/
def Written.setState (r : Written) (w : Nat) : Written :=
  { r with
    state0 := r.state0 || w == 0, state1 := r.state1 || w == 1
    state2 := r.state2 || w == 2, state3 := r.state3 || w == 3 }

/-- BusWrite of R55. A read-only location is unchanged (R56). -/
def State.writeLoc (s : State) (l : Loc) (v : Word) : State :=
  match l with
  | .cmd => s.issue v
  | .status => s.clearStatus v
  | .irqen => { s with ie := v.getLsbD 0 }
  | .keylen => { s with keylen := v.setWidth 8, kv := false }
  | .key w => { s with key := setKeyWord s.key w v, kv := false, written := s.written.setKey w }
  | .state w => { s with stateReg := setBlockWord s.stateReg w v, written := s.written.setState w }
  | .ibuf a => { s with mem := Memory.writeBytes (ibufBase + a) (wordBytes v) s.mem }
  | .id => s
  | .olen => s
  | .rk _ _ => s
  | .obuf _ => s

/-- The bus's whole answer to one HOST access: the state after it and the response. A performed read advances
only the count of draws (R54); a bus error changes nothing (R56); while reset is asserted nothing is performed
(R260). -/
def State.bus (s : State) : Access → State × Reply
  | .read width addr =>
    if s.rst then (s, .notPerformed)
    else match selectLoc s.cfg width addr with
      | .error e => (s, .error e)
      | .ok l => ({ s with draws := s.draws + 1 }, .data (s.readLoc l (Config.freeWord s.draws)))
  | .write width addr v =>
    if s.rst then (s, .notPerformed)
    else match selectLoc s.cfg width addr with
      | .error e => (s, .error e)
      | .ok l => if l.readOnly then (s, .error .readOnly) else (s.writeLoc l v, .written)

/-- A HOST write that breaks R264: to a command input, while BUSY = 1. -/
def State.inputHazard (s : State) : Access → Bool
  | .read _ _ => false
  | .write width addr _ =>
    match selectLoc s.cfg width addr with
    | .error _ => false
    | .ok l => s.busy && !s.rst && l.commandInput

/-- One HOST access: a bus error is a fault for the HOST (R56, U7), a write that breaks R264 is one too (U4),
and otherwise HOST has its reply. -/
def State.hostAccess (s : State) (a : Access) : Host.Outcome State Fault Refusal :=
  match s.bus a with
  | (_, .error e) => .fault (.busError e)
  | (s', r) => if s.inputHazard a then .fault .inputWriteWhileBusy else .next { s' with reply := r }

end Sys2Proof.Machine
end

