-- ==== Sys2Proof/Syntax.lean ====
section
/-! DEFINITION. The commands of the engine, one constructor per row of spec/opcode_table.json
(30_encoding.md R85), operands as the fields RIDX and LEN of the command word hold them (R82, R83). -/

namespace Sys2Proof

/-- A command. `ridx` is the 3-bit field RIDX, `len` the 16-bit field LEN. -/
inductive Instr where
  | nop
  | expand
  | encBlk (len : BitVec 16)
  | decBlk (len : BitVec 16)
  | encMsg (len : BitVec 16)
  | decMsg (len : BitVec 16)
  | pad (len : BitVec 16)
  | unpad (len : BitVec 16)
  | sub
  | isub
  | perm
  | iperm
  | addrk (ridx : BitVec 3)
  | round (ridx : BitVec 3)
  | iround (ridx : BitVec 3)
  deriving DecidableEq, Repr

/-- The assembler's commands: a mnemonic and its operand as a number of any size, the pseudo-commands of R90
among them. -/
inductive Asm where
  | nop
  | expand
  | encBlk (len : Nat)
  | decBlk (len : Nat)
  | encMsg (len : Nat)
  | decMsg (len : Nat)
  | pad (len : Nat)
  | unpad (len : Nat)
  | sub
  | isub
  | perm
  | iperm
  | addrk (i : Nat)
  | round (i : Nat)
  | iround (i : Nat)
  | whiten
  | unwhiten
  | addrkRound (i : Nat)
  deriving DecidableEq, Repr

end Sys2Proof
end

