-- ==== Sys2Proof/WellFormed.lean ====
section
/-! DEFINITION. Which commands a command word can hold: the operand ranges of 30_encoding.md R82, R83, R89. -/

namespace Sys2Proof

/-- RIDX is 0..4 for ADDRK and 0..3 for ROUND and IROUND (R82); LEN is any 16-bit number (R83). -/
def Instr.wellFormed : Instr → Bool
  | .nop => true
  | .expand => true
  | .encBlk _ => true
  | .decBlk _ => true
  | .encMsg _ => true
  | .decMsg _ => true
  | .pad _ => true
  | .unpad _ => true
  | .sub => true
  | .isub => true
  | .perm => true
  | .iperm => true
  | .addrk ridx => ridx ≤ 4#3
  | .round ridx => ridx ≤ 3#3
  | .iround ridx => ridx ≤ 3#3

/-- The operand ranges of the assembler (R89, R90). -/
def Asm.wellFormed : Asm → Bool
  | .nop => true
  | .expand => true
  | .encBlk len => len ≤ 65535
  | .decBlk len => len ≤ 65535
  | .encMsg len => len ≤ 65535
  | .decMsg len => len ≤ 65535
  | .pad len => len ≤ 65535
  | .unpad len => len ≤ 65535
  | .sub => true
  | .isub => true
  | .perm => true
  | .iperm => true
  | .addrk i => i ≤ 4
  | .round i => i ≤ 3
  | .iround i => i ≤ 3
  | .whiten => true
  | .unwhiten => true
  | .addrkRound i => i ≤ 4

end Sys2Proof
end

