-- ==== Sys2Proof/Decode.lean ====
section
/-! DEFINITION. Command words: fields, decoder, encoder, assembler (30_encoding.md R80-R92). -/

namespace Sys2Proof

/-- OPC, bits 7:0 (R80, R81). -/
def opcField (w : Word) : BitVec 8 := w.extractLsb' 0 8

/-- RIDX, bits 10:8 (R80, R82). -/
def ridxField (w : Word) : BitVec 3 := w.extractLsb' 8 3

/-- RSV, bits 15:11 (R80). -/
def rsvField (w : Word) : BitVec 5 := w.extractLsb' 11 5

/-- LEN, bits 31:16 (R80, R83). -/
def lenField (w : Word) : BitVec 16 := w.extractLsb' 16 16

/-- Why a word is ILLEGAL (R86, R87). The engine reports every one of them by the one code ILLEGAL_COMMAND. -/
inductive Reject where
  /-- OPC is none of the table's. -/
  | reservedOpcode
  /-- RSV is not 0. -/
  | reservedBits
  /-- RIDX is not 0 where the command does not use it. -/
  | unusedRidx
  /-- LEN is not 0 where the command does not use it. -/
  | unusedLen
  /-- RIDX is above the command's legal range. -/
  | ridxRange
  deriving DecidableEq, Repr

/-- A command with no operand: RIDX and LEN must be 0 (R86). -/
def decodePlain (w : Word) (i : Instr) : Except Reject Instr :=
  if ridxField w ≠ 0#3 then .error .unusedRidx
  else if lenField w ≠ 0#16 then .error .unusedLen
  else .ok i

/-- A command with operand LEN: RIDX must be 0 (R86). -/
def decodeLen (w : Word) (i : BitVec 16 → Instr) : Except Reject Instr :=
  if ridxField w ≠ 0#3 then .error .unusedRidx
  else .ok (i (lenField w))

/-- A command with operand RIDX, at most `top`: LEN must be 0 (R86). -/
def decodeRidx (w : Word) (top : BitVec 3) (i : BitVec 3 → Instr) : Except Reject Instr :=
  if lenField w ≠ 0#16 then .error .unusedLen
  else if ridxField w ≤ top then .ok (i (ridxField w))
  else .error .ridxRange

/-- The decoder of R86: total, every word one command or ILLEGAL, here with the reason. -/
def decode (w : Word) : Except Reject Instr :=
  if rsvField w ≠ 0#5 then .error .reservedBits
  else match (opcField w).toNat with
    | 0x00 => decodePlain w .nop
    | 0x01 => decodePlain w .expand
    | 0x02 => decodeLen w .encBlk
    | 0x03 => decodeLen w .decBlk
    | 0x04 => decodeLen w .encMsg
    | 0x05 => decodeLen w .decMsg
    | 0x06 => decodeLen w .pad
    | 0x07 => decodeLen w .unpad
    | 0x10 => decodePlain w .sub
    | 0x11 => decodePlain w .isub
    | 0x12 => decodePlain w .perm
    | 0x13 => decodePlain w .iperm
    | 0x14 => decodeRidx w 4#3 .addrk
    | 0x15 => decodeRidx w 3#3 .round
    | 0x16 => decodeRidx w 3#3 .iround
    | _ => .error .reservedOpcode

/-- The opcode of a command (R85). -/
def Instr.opcode : Instr → BitVec 8
  | .nop => 0x00#8
  | .expand => 0x01#8
  | .encBlk _ => 0x02#8
  | .decBlk _ => 0x03#8
  | .encMsg _ => 0x04#8
  | .decMsg _ => 0x05#8
  | .pad _ => 0x06#8
  | .unpad _ => 0x07#8
  | .sub => 0x10#8
  | .isub => 0x11#8
  | .perm => 0x12#8
  | .iperm => 0x13#8
  | .addrk _ => 0x14#8
  | .round _ => 0x15#8
  | .iround _ => 0x16#8

/-- The RIDX field of a command: its operand, or 0 (R85). -/
def Instr.ridx : Instr → BitVec 3
  | .addrk i => i
  | .round i => i
  | .iround i => i
  | .nop | .expand | .sub | .isub | .perm | .iperm => 0#3
  | .encBlk _ | .decBlk _ | .encMsg _ | .decMsg _ | .pad _ | .unpad _ => 0#3

/-- The LEN field of a command: its operand, or 0 (R85). -/
def Instr.len : Instr → BitVec 16
  | .encBlk n => n
  | .decBlk n => n
  | .encMsg n => n
  | .decMsg n => n
  | .pad n => n
  | .unpad n => n
  | .nop | .expand | .sub | .isub | .perm | .iperm => 0#16
  | .addrk _ | .round _ | .iround _ => 0#16

/-- The command word of R80: LEN, then RSV = 0, then RIDX, then OPC, from the most significant bit down, which
is R89's `OPC | (i << 8) | (len << 16)`. -/
def encode (i : Instr) : Word := i.len ++ 0#5 ++ i.ridx ++ i.opcode

/-- The command an assembler command stands for, where its operand fits the field (R89, R90). -/
def Asm.toInstr : Asm → Instr
  | .nop => .nop
  | .expand => .expand
  | .encBlk n => .encBlk (BitVec.ofNat 16 n)
  | .decBlk n => .decBlk (BitVec.ofNat 16 n)
  | .encMsg n => .encMsg (BitVec.ofNat 16 n)
  | .decMsg n => .decMsg (BitVec.ofNat 16 n)
  | .pad n => .pad (BitVec.ofNat 16 n)
  | .unpad n => .unpad (BitVec.ofNat 16 n)
  | .sub => .sub
  | .isub => .isub
  | .perm => .perm
  | .iperm => .iperm
  | .addrk i => .addrk (BitVec.ofNat 3 i)
  | .round i => .round (BitVec.ofNat 3 i)
  | .iround i => .iround (BitVec.ofNat 3 i)
  | .whiten => .addrk 4#3
  | .unwhiten => .addrk 4#3
  | .addrkRound i => .addrk (BitVec.ofNat 3 i)

/-- The assembler: the word of R89, or nothing where an operand is outside its range. -/
def assemble (a : Asm) : Option Word :=
  if a.wellFormed then some (encode a.toInstr) else none

/-- The value of a digit in the given base (10 or 16). -/
def digitValue (base : Nat) (c : Char) : Option Nat :=
  let n := c.toNat
  let v :=
    if 48 ≤ n ∧ n ≤ 57 then n - 48
    else if 97 ≤ n ∧ n ≤ 102 then n - 87
    else if 65 ≤ n ∧ n ≤ 70 then n - 55
    else base
  if v < base then some v else none

/-- The number whose digits, after those that gave `acc`, are `cs`. -/
def digitsValue (base : Nat) : List Char → Nat → Option Nat
  | [], acc => some acc
  | c :: cs, acc =>
    match digitValue base c with
    | some v => digitsValue base cs (base * acc + v)
    | none => none

/-- An operand as R89 writes it: a decimal or `0x` number. -/
def parseNumber : List Char → Option Nat
  | [] => none
  | '0' :: 'x' :: c :: cs => digitsValue 16 (c :: cs) 0
  | c :: cs => digitsValue 10 (c :: cs) 0

/-- The characters before the first blank, and those after it. -/
def splitAtBlank : List Char → List Char × Option (List Char)
  | [] => ([], none)
  | c :: cs =>
    if c = ' ' then ([], some cs)
    else (c :: (splitAtBlank cs).1, (splitAtBlank cs).2)

/-- The commands written with no operand (R89, R90). -/
def plainMnemonics : List (List Char × Asm) :=
  [(['N', 'O', 'P'], .nop), (['E', 'X', 'P', 'A', 'N', 'D'], .expand), (['S', 'U', 'B'], .sub),
   (['I', 'S', 'U', 'B'], .isub), (['P', 'E', 'R', 'M'], .perm), (['I', 'P', 'E', 'R', 'M'], .iperm),
   (['W', 'H', 'I', 'T', 'E', 'N'], .whiten), (['U', 'N', 'W', 'H', 'I', 'T', 'E', 'N'], .unwhiten)]

/-- The assembler command with the given mnemonic and operand (R89, R90). -/
def asmWithOperand (m : List Char) (n : Nat) : Option Asm :=
  if m = ['E', 'N', 'C', '_', 'B', 'L', 'K'] then some (.encBlk n)
  else if m = ['D', 'E', 'C', '_', 'B', 'L', 'K'] then some (.decBlk n)
  else if m = ['E', 'N', 'C', '_', 'M', 'S', 'G'] then some (.encMsg n)
  else if m = ['D', 'E', 'C', '_', 'M', 'S', 'G'] then some (.decMsg n)
  else if m = ['P', 'A', 'D'] then some (.pad n)
  else if m = ['U', 'N', 'P', 'A', 'D'] then some (.unpad n)
  else if m = ['A', 'D', 'D', 'R', 'K'] then some (.addrk n)
  else if m = ['R', 'O', 'U', 'N', 'D'] then some (.round n)
  else if m = ['I', 'R', 'O', 'U', 'N', 'D'] then some (.iround n)
  else if m = ['A', 'D', 'D', 'R', 'K', '_', 'R', 'O', 'U', 'N', 'D'] then some (.addrkRound n)
  else none

/-- One line of assembler text (R89): the mnemonic, then, after one blank, its operand if it has one. -/
def parseAsm (line : List Char) : Option Asm :=
  match splitAtBlank line with
  | (m, none) => plainMnemonics.lookup m
  | (m, some operand) =>
    match parseNumber operand with
    | some n => asmWithOperand m n
    | none => none

/-- The command that the decoder reads from a command whose bits are `w`, of which the table gives `nbits`:
the bits above are 0. A command is one 32-bit word (R88), so a longer one is none. -/
def decodeTableWord (nbits w : Nat) : Option Instr :=
  let bits := w % 2 ^ nbits
  if bits < 2 ^ 32 then
    match decode (BitVec.ofNat 32 bits) with
    | .ok i => some i
    | .error _ => none
  else none

end Sys2Proof
end

