-- ==== Sys2Proof/Machine/Operands.lean ====
section
/-! DEFINITION. The operands of the commands: IBUF[0..LEN), the key and its declared length, a round key by RIDX
(30_encoding.md R82, R83, 43_control.md R206, R210). -/

namespace Sys2Proof.Machine

/-- `IBUF[0 .. n)`, if every byte of it has been written since reset (R36, R43). -/
def State.input (s : State) (n : Nat) : Option (List Byte) := Memory.readBytes s.mem ibufBase n

/-- A command that reads `IBUF[0 .. n)` and goes on with it, or faults on a byte nothing has written (R43). -/
def State.withInput (s : State) (n : Nat) (go : List Byte → Host.Outcome State Fault Refusal) :
    Host.Outcome State Fault Refusal :=
  match s.input n with
  | none => .fault .unwrittenInput
  | some d => go d

/-- The key bytes the source's functions take: KEY[0..8) (R34). -/
def State.keyBytes (s : State) : List Byte := be64 s.key

/-- A command on STATE and round key RIDX, `top` its largest legal index: RIDX above it is ILLEGAL_COMMAND
(R86; log 12), KV = 0 is NO_ROUND_KEYS (R155-R157). -/
def State.onRoundKey (s : State) (top ridx : BitVec 3) (f : Block → Block → Block) : State :=
  if top < ridx then s.fail .illegalCommand
  else if s.kv = false then s.fail .noRoundKeys
  else (s.setBlock (f s.stateReg (roundKey s.rk ridx.toNat))).complete .noError

/-- A block command: the checks of R158 and R159 in their order, the key-schedule step, then the block transform
of IBUF[0..16) into OBUF[0..16), STATE and OLEN. -/
def State.blockCommand (s : State) (len : BitVec 16) (f : Block → RoundKeys → Block) :
    Host.Outcome State Fault Refusal :=
  if len.toNat ≠ 16 then .next (s.failOutput .invalidBlockLength)
  else if s.keylen ≠ 8#8 then .next (s.failOutput .invalidKeyLength)
  else s.withInput 16 fun d =>
    let c := f (blockOfBytes d) s.expandKey.rk
    .next (((s.expandKey.deliver (blockBytes c)).setBlock c).complete .noError)

end Sys2Proof.Machine
end

