-- ==== Sys2Proof/Machine/Block.lean ====
section
/-! DEFINITION. The round and block commands (41_block.md R155-R159). -/

namespace Sys2Proof.Machine

/-- ADDRK i: STATE <- STATE XOR RK[i] (R155). -/
def execAddrk (ridx : BitVec 3) (s : State) : Host.Outcome State Fault Refusal :=
  .next (s.onRoundKey 4#3 ridx fun b rk => b ^^^ rk)

/-- ROUND i: STATE <- round(STATE, RK[i]) (R156). -/
def execRound (ridx : BitVec 3) (s : State) : Host.Outcome State Fault Refusal :=
  .next (s.onRoundKey 3#3 ridx forwardRound)

/-- IROUND i: STATE <- iround(STATE, RK[i]) (R157). -/
def execIround (ridx : BitVec 3) (s : State) : Host.Outcome State Fault Refusal :=
  .next (s.onRoundKey 3#3 ridx inverseRound)

/-- ENC_BLK len: encrypt IBUF[0..16) into OBUF[0..16) and STATE (R158). -/
def execEncBlk (len : BitVec 16) (s : State) : Host.Outcome State Fault Refusal :=
  s.blockCommand len encryptBlockRK

/-- DEC_BLK len: decrypt IBUF[0..16) into OBUF[0..16) and STATE (R159). -/
def execDecBlk (len : BitVec 16) (s : State) : Host.Outcome State Fault Refusal :=
  s.blockCommand len decryptBlockRK

end Sys2Proof.Machine
end

