-- ==== Sys2Proof/Machine/Control.lean ====
section
/-! DEFINITION. The control commands: NOP (43_control.md R207) and an illegal word (R208). -/

namespace Sys2Proof.Machine

/-- NOP: only the completion fields (R207). -/
def execNop (s : State) : Host.Outcome State Fault Refusal := .next (s.complete .noError)

/-- A word that decodes to ILLEGAL: code 7, nothing but the completion fields (R208). -/
def execIllegal (s : State) : Host.Outcome State Fault Refusal := .next (s.fail .illegalCommand)

end Sys2Proof.Machine
end

