-- ==== Sys2Proof/Machine/Layer.lean ====
section
/-! DEFINITION. The commands of the substitution layer, the permutation layer and the key schedule
(40_primitives.md R114-R118). -/

namespace Sys2Proof.Machine

/-- SUB: STATE <- sub(STATE) (R114). -/
def execSub (s : State) : Host.Outcome State Fault Refusal :=
  .next ((s.setBlock (sub s.stateReg)).complete .noError)

/-- ISUB: STATE <- isub(STATE) (R115). -/
def execIsub (s : State) : Host.Outcome State Fault Refusal :=
  .next ((s.setBlock (isub s.stateReg)).complete .noError)

/-- PERM: STATE <- perm(STATE) (R116). -/
def execPerm (s : State) : Host.Outcome State Fault Refusal :=
  .next ((s.setBlock (perm s.stateReg)).complete .noError)

/-- IPERM: STATE <- iperm(STATE) (R117). -/
def execIperm (s : State) : Host.Outcome State Fault Refusal :=
  .next ((s.setBlock (iperm s.stateReg)).complete .noError)

/-- EXPAND: RK <- expand(KEY), KV <- 1; INVALID_KEY_LENGTH unless KEYLEN = 8 (R118). -/
def execExpand (s : State) : Host.Outcome State Fault Refusal :=
  if s.keylen ≠ 8#8 then .next (s.fail .invalidKeyLength)
  else .next (s.expandKey.complete .noError)

end Sys2Proof.Machine
end

