-- ==== Sys2Proof/Machine/Message.lean ====
section
/-! DEFINITION. The message and padding commands (42_message.md R186-R193). They compute in the hidden working
register, so STATE is unchanged (R186). -/

namespace Sys2Proof.Machine

/-- ENC_MSG len: pad and encrypt IBUF[0..len) into OBUF (R190). -/
def execEncMsg (len : BitVec 16) (s : State) : Host.Outcome State Fault Refusal :=
  if s.cfg.bufSize < len.toNat + padCount len.toNat then .next (s.failOutput .capacity)
  else if s.keylen ≠ 8#8 then .next (s.failOutput .invalidKeyLength)
  else s.withInput len.toNat fun d =>
    .next ((s.expandKey.deliver (encryptMessageRK d s.expandKey.rk)).complete .noError)

/-- DEC_MSG len: decrypt IBUF[0..len) and remove its padding into OBUF (R191). RK and KV are written before the
padding is checked, and that write stands (R204). -/
def execDecMsg (len : BitVec 16) (s : State) : Host.Outcome State Fault Refusal :=
  if len.toNat % 16 ≠ 0 then .next (s.failOutput .invalidCiphertextLength)
  else if s.cfg.bufSize < len.toNat then .next (s.failOutput .capacity)
  else if s.keylen ≠ 8#8 then .next (s.failOutput .invalidKeyLength)
  else s.withInput len.toNat fun d =>
    match decryptMessageRK d s.expandKey.rk with
    | .error e => .next (s.expandKey.failOutput e)
    | .ok r => .next ((s.expandKey.deliver r).complete .noError)

/-- PAD len: pad IBUF[0..len) into OBUF (R192). -/
def execPad (len : BitVec 16) (s : State) : Host.Outcome State Fault Refusal :=
  if s.cfg.bufSize < len.toNat + padCount len.toNat then .next (s.failOutput .capacity)
  else s.withInput len.toNat fun d => .next ((s.deliver (pad d)).complete .noError)

/-- UNPAD len: check and strip the padding of IBUF[0..len) into OBUF (R193). The length checks come before the
capacity check, the content checks after it (R224). -/
def execUnpad (len : BitVec 16) (s : State) : Host.Outcome State Fault Refusal :=
  if len.toNat = 0 ∨ len.toNat % 16 ≠ 0 then .next (s.failOutput .invalidPadding)
  else if s.cfg.bufSize < len.toNat then .next (s.failOutput .capacity)
  else s.withInput len.toNat fun d =>
    match unpad d with
    | .error e => .next (s.failOutput e)
    | .ok r => .next ((s.deliver r).complete .noError)

end Sys2Proof.Machine
end

