-- ==== Sys2Proof/Machine/Dispatch.lean ====
section
/-! DEFINITION. Dispatch of a command to its rule (43_control.md R203). -/

namespace Sys2Proof.Machine

def exec (i : Instr) (s : State) : Host.Outcome State Fault Refusal :=
  match i with
  | .nop => Sys2Proof.Machine.execNop s
  | .expand => Sys2Proof.Machine.execExpand s
  | .encBlk len => Sys2Proof.Machine.execEncBlk len s
  | .decBlk len => Sys2Proof.Machine.execDecBlk len s
  | .encMsg len => Sys2Proof.Machine.execEncMsg len s
  | .decMsg len => Sys2Proof.Machine.execDecMsg len s
  | .pad len => Sys2Proof.Machine.execPad len s
  | .unpad len => Sys2Proof.Machine.execUnpad len s
  | .sub => Sys2Proof.Machine.execSub s
  | .isub => Sys2Proof.Machine.execIsub s
  | .perm => Sys2Proof.Machine.execPerm s
  | .iperm => Sys2Proof.Machine.execIperm s
  | .addrk ridx => Sys2Proof.Machine.execAddrk ridx s
  | .round ridx => Sys2Proof.Machine.execRound ridx s
  | .iround ridx => Sys2Proof.Machine.execIround ridx s

end Sys2Proof.Machine
end

