-- ==== Sys2Proof/Machine/Engine.lean ====
section
/-! DEFINITION. The ENGINE's completion step and the transitions of the single interleaving (43_control.md
R202-R206, 20_memory.md R60, 70_reset_and_hazards.md R260). -/

namespace Sys2Proof.Machine

/-- The completion step (R205), enabled only when BUSY = 1: decode CMDL and execute the command, or complete with
ILLEGAL_COMMAND. When BUSY = 0 ENGINE has no step, and nothing changes (R202). -/
def State.engineStep (s : State) : Host.Outcome State Fault Refusal :=
  if s.busy then
    match decode s.cmdl with
    | .ok i => exec i s
    | .error _ => execIllegal s
  else .next s

/-- One event of the interleaving (R60, R225, R260). -/
def State.event (s : State) : Event → Host.Outcome State Fault Refusal
  | .host a => s.hostAccess a
  | .complete => s.engineStep
  | .assertReset => .next s.afterReset
  | .releaseReset => .next { s with rst := false }

/-- The next transition: the next pending event, or with none pending the ENGINE's completion, so that every
accepted command completes (R202). -/
def State.advance (s : State) : Host.Outcome State Fault Refusal :=
  match s.pending with
  | [] => s.engineStep
  | e :: rest => State.event { s with pending := rest } e

/-- The first `nbits` bits of `w` as a command word accepted by the engine (R200), its completion the next
event. -/
def State.placeCommand (s : State) (nbits w : Nat) : State :=
  { s.accept (BitVec.ofNat 32 (w % 2 ^ nbits)) with pending := .complete :: s.pending }

end Sys2Proof.Machine
end

