-- ==== Sys2Proof/Machine/HostProgram.lean ====
section
/-! DEFINITION. The HOST program syntax of 30_encoding.md R91, as events. -/

namespace Sys2Proof.Machine

/-- `WR off, v`: one 32-bit write. -/
def hostWr (c : Config) (off : Nat) (v : Word) : Event := .host (.write 32 (c.base + off) v)

/-- `RD off`: one 32-bit read; the value is the `reply` after it. -/
def hostRd (c : Config) (off : Nat) : Event := .host (.read 32 (c.base + off))

/-- `CMD c`: a write of the command's word to CMD. -/
def hostCmd (c : Config) (i : Instr) : Event := hostWr c 0x004 (encode i)

/-- `WAIT`, with `n` polls that find BUSY = 1 before the completion, and the poll that ends the loop (log 5). -/
def hostWait (c : Config) (n : Nat) : List Event :=
  List.replicate n (hostRd c 0x008) ++ [.complete, hostRd c 0x008]

/-- `WRBYTES base, d`: the writes that store `d` from an offset on, the last word filled with zero bytes; `n`
words at most. -/
def hostWrBytes (c : Config) : Nat → Nat → List Byte → List Event
  | 0, _, _ => []
  | _ + 1, _, [] => []
  | n + 1, off, b :: d =>
    hostWr c off (wordOfLanes b (d.getD 0 0#8) (d.getD 1 0#8) (d.getD 2 0#8)) ::
      hostWrBytes c n (off + 4) (d.drop 3)

end Sys2Proof.Machine
end

