-- ==== Sys2Proof/Safety.lean ====
section
/-! DEFINITION. What counts as a safe run (10_state.md R43, 70_reset_and_hazards.md R263-R266). -/

namespace Sys2Proof.Machine

/-- Every word of KEY has been written since reset (R43, R263). -/
def State.keyWritten (s : State) : Bool := s.written.key0 && s.written.key1

/-- Every word of STATE has been written since reset (R43, R263). -/
def State.stateWritten (s : State) : Bool :=
  s.written.state0 && s.written.state1 && s.written.state2 && s.written.state3

/-- The command reads no register word that nothing has written since reset. R43 asks a model to fault on such a
read; this model gives the register its named reset value and keeps the record (log 2), so that this predicate
says where a run leans on that value. -/
def readsWritten (s : State) : Instr → Bool
  | .nop => true
  | .expand => s.keylen != 8#8 || s.keyWritten
  | .encBlk len => len != 16#16 || s.keylen != 8#8 || s.keyWritten
  | .decBlk len => len != 16#16 || s.keylen != 8#8 || s.keyWritten
  | .encMsg len => decide (s.cfg.bufSize ≤ len.toNat) || s.keylen != 8#8 || s.keyWritten
  | .decMsg len =>
    decide (len.toNat % 16 ≠ 0) || decide (s.cfg.bufSize < len.toNat) || s.keylen != 8#8 || s.keyWritten
  | .pad _ => true
  | .unpad _ => true
  | .sub => s.stateWritten
  | .isub => s.stateWritten
  | .perm => s.stateWritten
  | .iperm => s.stateWritten
  | .addrk _ => !s.kv || s.stateWritten
  | .round _ => !s.kv || s.stateWritten
  | .iround _ => !s.kv || s.stateWritten

/-- The next transition is ENGINE's completion. -/
def State.completesNext (s : State) : Bool :=
  s.busy && (s.pending.head?.all fun e => e == .complete)

/-- The next transition reads no register word that nothing has written since reset. -/
def State.stepReadsWritten (s : State) : Bool :=
  !s.completesNext || match decode s.cmdl with
    | .ok i => readsWritten s i
    | .error _ => true

/-- `k` steps with no fault and no refusal, and no read of a register word that nothing has written. -/
def safeRun : Nat → State → Bool
  | 0, _ => true
  | k + 1, s =>
    s.stepReadsWritten && match step s with
      | .next s' => safeRun k s'
      | .fault _ => false
      | .refused _ => false

/-- The OLEN-writing commands (00_scope.md R18). -/
def writesOlen : Instr → Bool
  | .encBlk _ => true
  | .decBlk _ => true
  | .encMsg _ => true
  | .decMsg _ => true
  | .pad _ => true
  | .unpad _ => true
  | .nop => false
  | .expand => false
  | .sub => false
  | .isub => false
  | .perm => false
  | .iperm => false
  | .addrk _ => false
  | .round _ => false
  | .iround _ => false

/-- How many bytes of IBUF a command reads when its checks pass (R210). -/
def inputLength : Instr → Nat
  | .encBlk _ => 16
  | .decBlk _ => 16
  | .encMsg len => len.toNat
  | .decMsg len => len.toNat
  | .pad len => len.toNat
  | .unpad len => len.toNat
  | .nop => 0
  | .expand => 0
  | .sub => 0
  | .isub => 0
  | .perm => 0
  | .iperm => 0
  | .addrk _ => 0
  | .round _ => 0
  | .iround _ => 0

/-- IBUF begins with the bytes `d` (R36). -/
def State.inputIs (s : State) (d : List Byte) : Prop :=
  ∀ k < d.length, Memory.read s.mem (ibufBase + k) = d[k]?

/-- OBUF begins with the bytes `d` (R37). -/
def State.outputIs (s : State) (d : List Byte) : Prop :=
  ∀ k < d.length, Memory.read s.mem (obufBase + k) = d[k]?

/-- `after` is `before` with an output delivered (R37): `out` from OBUF[0] on, no value in the rest of the OBUF
window, every other byte as before. -/
def outputDelivered (before after : Memory) (out : List Byte) : Prop :=
  ∀ a, Memory.read after a =
    if obufBase ≤ a ∧ a < obufBase + out.length then out[a - obufBase]?
    else if obufBase ≤ a ∧ a < obufEnd then none
    else Memory.read before a

/-- The buffers hold what the rules say they can: canonical form; legal parameters; values only in backed IBUF
bytes and in OBUF[0..OLEN), and in every one of the latter; OLEN at most BUFSZ (R32, R36, R37, R58). -/
def State.BuffersWellFormed (s : State) : Prop :=
  Memory.wf s.mem ∧ s.cfg.wf = true ∧ s.olen.toNat ≤ s.cfg.bufSize ∧
  (∀ a, Memory.read s.mem a ≠ none →
    (ibufBase ≤ a ∧ a < ibufBase + s.cfg.bufSize) ∨ (obufBase ≤ a ∧ a < obufBase + s.olen.toNat)) ∧
  (∀ a, obufBase ≤ a → a < obufBase + s.olen.toNat → Memory.read s.mem a ≠ none)

/-- The STATUS fields agree with each other: BUSY and DONE never both 1 (R26), ERR exactly when ERRCODE is not 0
(R27), ERRCODE 0 while BUSY = 1 (R200). -/
def State.StatusConsistent (s : State) : Prop :=
  ¬(s.busy = true ∧ s.done = true) ∧ s.err = decide (s.errcode ≠ .noError) ∧
  (s.busy = true → s.errcode = .noError)

/-- KV = 1 means that the RK file holds `expand(KEY)` for the present KEY, and that the declared key length is 8
(R29). -/
def State.RoundKeysCurrent (s : State) : Prop :=
  s.kv = true → s.keylen = 8#8 ∧ s.rk = expand s.cfg.rc s.key

/-- While reset is asserted every piece of the engine's state holds its reset value (R260). -/
def State.ResetHeld (s : State) : Prop := s.rst = true → s = s.afterReset

end Sys2Proof.Machine
end

