-- ==== Sys2Proof/Certificates/Slice0/Obligations.lean ====
section
/-! DEFINITION. The statements about the engine, each with the rules of spec/ it formalises. -/

open Sys2Proof Sys2Proof.Machine

/-! ### Command words -/

/-- R92: the example words, legal and illegal. -/
def Obligations.ExampleWordsDecode : Prop :=
  (∀ e ∈ ([(0x00000000#32, .nop), (0x00000001#32, .expand), (0x00100002#32, .encBlk 16#16),
      (0x00100003#32, .decBlk 16#16), (0x00070004#32, .encMsg 7#16), (0x00100005#32, .decMsg 16#16),
      (0x000D0006#32, .pad 13#16), (0x00200007#32, .unpad 32#16), (0x00000010#32, .sub),
      (0x00000011#32, .isub), (0x00000012#32, .perm), (0x00000013#32, .iperm), (0x00000014#32, .addrk 0#3),
      (0x00000414#32, .addrk 4#3), (0x00000315#32, .round 3#3), (0x00000016#32, .iround 0#3)] :
      List (Word × Instr)), decode e.1 = .ok e.2 ∧ encode e.2 = e.1) ∧
  decode 0x00000008#32 = .error .reservedOpcode ∧ decode 0x00000514#32 = .error .ridxRange ∧
  decode 0x00000415#32 = .error .ridxRange ∧ decode 0x00100001#32 = .error .unusedLen ∧
  decode 0x00000802#32 = .error .reservedBits ∧ decode 0x00000102#32 = .error .unusedRidx

/-- R85, R86: the decoder gives back every well-formed command from its word. -/
def Obligations.DecodeInvertsEncode : Prop :=
  ∀ i : Instr, i.wellFormed = true → decode (encode i) = .ok i

/-- R86, R89: a word that decodes is the word of the one well-formed command it decodes to, and the word of a
command is `OPC | (i << 8) | (len << 16)`. -/
def Obligations.DecodedWordIsItsEncoding : Prop :=
  (∀ i : Instr,
    encode i = i.opcode.setWidth 32 ||| (i.ridx.setWidth 32 <<< 8) ||| (i.len.setWidth 32 <<< 16)) ∧
  ∀ (w : Word) (i : Instr), decode w = .ok i → i.wellFormed = true ∧ encode i = w

/-- R86, R87: exactly the reserved words are illegal. -/
def Obligations.IllegalWordsAreTheReservedOnes : Prop :=
  ∀ w : Word, (∃ r, decode w = .error r) ↔
    (w.extractLsb' 11 5 ≠ 0#5 ∨
    (0x08 ≤ (w.extractLsb' 0 8).toNat ∧ (w.extractLsb' 0 8).toNat ≤ 0x0F) ∨ 0x17 ≤ (w.extractLsb' 0 8).toNat ∨
    ((w.extractLsb' 0 8).toNat ∈ [0x00, 0x01, 0x10, 0x11, 0x12, 0x13] ∧
      (w.extractLsb' 8 3 ≠ 0#3 ∨ w.extractLsb' 16 16 ≠ 0#16)) ∨
    ((w.extractLsb' 0 8).toNat ∈ [0x02, 0x03, 0x04, 0x05, 0x06, 0x07] ∧ w.extractLsb' 8 3 ≠ 0#3) ∨
    ((w.extractLsb' 0 8).toNat = 0x14 ∧ (w.extractLsb' 16 16 ≠ 0#16 ∨ 4 < (w.extractLsb' 8 3).toNat)) ∨
    ((w.extractLsb' 0 8).toNat ∈ [0x15, 0x16] ∧ (w.extractLsb' 16 16 ≠ 0#16 ∨ 3 < (w.extractLsb' 8 3).toNat)))

/-- R89, R90: the word of every assembler command, `OPC | (i << 8) | (len << 16)` written out for each mnemonic, and
no word where an operand is outside its range; what is encoded decodes to the command written. -/
def Obligations.AssemblerRefusesOperandsOutOfRange : Prop :=
  (assemble .nop = some 0x00000000#32 ∧ assemble .expand = some 0x00000001#32 ∧
    assemble .sub = some 0x00000010#32 ∧ assemble .isub = some 0x00000011#32 ∧
    assemble .perm = some 0x00000012#32 ∧ assemble .iperm = some 0x00000013#32 ∧
    assemble .whiten = some 0x00000414#32 ∧ assemble .unwhiten = some 0x00000414#32) ∧
  (∀ n : Nat,
    assemble (.encBlk n) = (if n ≤ 65535 then some (BitVec.ofNat 32 (0x02 + n * 65536)) else none) ∧
    assemble (.decBlk n) = (if n ≤ 65535 then some (BitVec.ofNat 32 (0x03 + n * 65536)) else none) ∧
    assemble (.encMsg n) = (if n ≤ 65535 then some (BitVec.ofNat 32 (0x04 + n * 65536)) else none) ∧
    assemble (.decMsg n) = (if n ≤ 65535 then some (BitVec.ofNat 32 (0x05 + n * 65536)) else none) ∧
    assemble (.pad n) = (if n ≤ 65535 then some (BitVec.ofNat 32 (0x06 + n * 65536)) else none) ∧
    assemble (.unpad n) = (if n ≤ 65535 then some (BitVec.ofNat 32 (0x07 + n * 65536)) else none)) ∧
  (∀ i : Nat,
    assemble (.addrk i) = (if i ≤ 4 then some (BitVec.ofNat 32 (0x14 + i * 256)) else none) ∧
    assemble (.round i) = (if i ≤ 3 then some (BitVec.ofNat 32 (0x15 + i * 256)) else none) ∧
    assemble (.iround i) = (if i ≤ 3 then some (BitVec.ofNat 32 (0x16 + i * 256)) else none) ∧
    assemble (.addrkRound i) = (if i ≤ 4 then some (BitVec.ofNat 32 (0x14 + i * 256)) else none)) ∧
  ∀ a w, assemble a = some w → decode w = .ok a.toInstr

/-! ### Steps -/

/-- R202, R205: when ENGINE's completion is the next transition, the step runs the command that CMDL decodes to,
on the state with that event taken from the list of pending events (the list is the model's rendering of R60's one
order, log 5). -/
def Obligations.StepRunsDecodedCommand : Prop :=
  ∀ (s : State) (i : Instr), s.busy = true → decode s.cmdl = .ok i → i.wellFormed = true →
    (s.pending = [] → step s = exec i s) ∧
    (∀ rest, s.pending = .complete :: rest → step s = exec i { s with pending := rest })

/-- R208, R220: an illegal word completes with ILLEGAL_COMMAND, whose code is 7, and writes nothing but the completion
fields. That ENGINE completes with nothing pending, and that the step takes its event off the list of pending events,
are the model's choice, log 5. -/
def Obligations.IllegalWordCompletesWithCodeSeven : Prop :=
  ErrCode.illegalCommand.code = 7#4 ∧
  ∀ (s : State) (r : Reject), s.busy = true → decode s.cmdl = .error r →
    (s.pending = [] → step s = .next
      { s with busy := false, done := true, err := true, errcode := .illegalCommand }) ∧
    (∀ rest, s.pending = .complete :: rest → step s = .next
      { s with
        pending := rest, busy := false, done := true, err := true, errcode := .illegalCommand })

/-- R60, R202, R260: the other transitions. A pending HOST access, an edge of the reset input, and an idle engine,
which has no step of its own (the list of events, and a completion event that finds the engine idle, are the model's
choices, log 5 and log 21; the reset input's release is log 10). -/
def Obligations.StepTakesTheNextEvent : Prop :=
  ∀ s : State,
    (s.busy = false → s.pending = [] → step s = .next s) ∧
    (∀ rest, s.busy = false → s.pending = .complete :: rest → step s = .next { s with pending := rest }) ∧
    (∀ a rest, s.pending = .host a :: rest → step s = State.hostAccess { s with pending := rest } a) ∧
    (∀ rest, s.pending = .releaseReset :: rest → step s = .next { s with pending := rest, rst := false })

/-- R202, R260: an accepted command is in flight for at most as many steps as there are pending events. Then the next
step ends it: ENGINE completes it (or it reads unwritten input, which is a fault), reset abandons it, or a HOST access
faults. (The list of pending events is the model's choice, log 5.) -/
def Obligations.BusyFallsOrTheRunFaults : Prop :=
  ∀ s : State, s.busy = true → ∃ k ≤ s.pending.length, ∃ u : State,
    Sys2Proof.core.run k s = .next u ∧ u.busy = true ∧ u.cmdl = s.cmdl ∧
    (((u.pending = [] ∨ ∃ rest, u.pending = .complete :: rest) ∧
        ((∃ t, step u = .next t ∧ t.busy = false ∧ t.done = true) ∨ step u = .fault .unwrittenInput)) ∨
      (∃ rest t, u.pending = .assertReset :: rest ∧ step u = .next t ∧ t.busy = false ∧ t.done = false) ∨
      (∃ a rest f, u.pending = .host a :: rest ∧ step u = .fault f ∧ f ≠ .unwrittenInput))

/-! ### The cipher's layers -/

/-- R100, R101, R104, R105, R108: the S-box ROM, the P wiring, their closed forms and their inverse identities. -/
def Obligations.TablesAreMutualInverses : Prop :=
  (∀ x : Nibble, (sbox x).toNat = [12, 5, 6, 11, 9, 0, 10, 13, 3, 14, 15, 8, 4, 7, 1, 2].getD x.toNat 0) ∧
  (∀ y : Nibble, (invSbox y).toNat = [5, 14, 15, 8, 12, 1, 2, 13, 11, 4, 6, 3, 0, 7, 9, 10].getD y.toNat 0) ∧
  (∀ x : Nibble, invSbox (sbox x) = x ∧ sbox (invSbox x) = x) ∧
  (∀ i < 127, permTab i = (i * 13) % 127 ∧ ipermTab i = (i * 88) % 127) ∧
  permTab 127 = 127 ∧ ipermTab 127 = 127 ∧
  (∀ i < 128, permTab i < 128 ∧ ipermTab i < 128 ∧ ipermTab (permTab i) = i ∧ permTab (ipermTab i) = i)

/-- R102, R103: both nibbles of every byte go through the table, each on its own, and the two layers undo each
other. -/
def Obligations.SubstitutionLayersActOnEachNibble : Prop :=
  (∀ b : Block, isub (sub b) = b ∧ sub (isub b) = b) ∧
  ∀ (b : Block) (j : Nat), j < 16 →
    (blockByte (sub b) j).extractLsb' 4 4 = sbox ((blockByte b j).extractLsb' 4 4) ∧
    (blockByte (sub b) j).extractLsb' 0 4 = sbox ((blockByte b j).extractLsb' 0 4) ∧
    (blockByte (isub b) j).extractLsb' 4 4 = invSbox ((blockByte b j).extractLsb' 4 4) ∧
    (blockByte (isub b) j).extractLsb' 0 4 = invSbox ((blockByte b j).extractLsb' 0 4)

/-- R106, R107: where each bit of a block goes, and the two layers undo each other. -/
def Obligations.PermutationLayersMoveEachBit : Prop :=
  (∀ b : Block, iperm (perm b) = b ∧ perm (iperm b) = b) ∧
  ∀ (b : Block) (i : Nat), i < 128 →
    blockBit (perm b) (permTab i) = blockBit b i ∧ blockBit (iperm b) i = blockBit b (permTab i) ∧
    blockBit (iperm b) (ipermTab i) = blockBit b i

/-- R112: the key schedule byte by byte, on any byte sequence. -/
def Obligations.KeyScheduleByteByByte : Prop :=
  ∀ (rc : RoundKeys) (key : List Byte),
    (key.length ≠ 8 → expandBytes rc key = .error .invalidKeyLength) ∧
    (key.length = 8 → ∃ rk, expandBytes rc key = .ok rk ∧
      ∀ i j, i < 5 → j < 16 →
        blockByte (roundKey rk i) j
          = (be64 (rotl64 (int64 key) ((i * 11) % 64))).getD (j % 8) 0#8 ^^^ blockByte (roundKey rc i) j)

/-- R113: the intentional weaknesses of the key schedule. -/
def Obligations.KeyScheduleWeaknessesHold : Prop :=
  ∀ (rc : RoundKeys) (k : Key),
    (∀ i < 5, (roundKey (expand rc k) i ^^^ roundKey rc i).extractLsb' 64 64
        = (roundKey (expand rc k) i ^^^ roundKey rc i).extractLsb' 0 64) ∧
    (∀ i < 5, roundKey (expand rc 0#64) i = roundKey rc i) ∧
    (roundKey (expand rc k) 0 ^^^ roundKey rc 0).extractLsb' 64 64 = k

/-- R142: the round and the inverse round undo each other. -/
def Obligations.RoundsAreMutualInverses : Prop :=
  ∀ s rk : Block, inverseRound (forwardRound s rk) rk = s ∧ forwardRound (inverseRound s rk) rk = s

/-- R146, R150: for every round-constant ROM, every 8-byte key and every 16-byte block the keyed block transforms
succeed, with what `encryptBlockRK` and `decryptBlockRK` give under the expanded key, and undo each other; on other
lengths they fail, the block length checked first. -/
def Obligations.BlockTransformsRoundTrip : Prop :=
  ∀ (rc : RoundKeys) (b key : List Byte),
    (b.length = 16 → key.length = 8 →
      (∃ rk, expandBytes rc key = .ok rk ∧
        encryptBlock rc b key = .ok (blockBytes (encryptBlockRK (blockOfBytes b) rk)) ∧
        decryptBlock rc b key = .ok (blockBytes (decryptBlockRK (blockOfBytes b) rk))) ∧
      (∃ c, encryptBlock rc b key = .ok c ∧ c.length = 16 ∧ decryptBlock rc c key = .ok b) ∧
      (∃ p, decryptBlock rc b key = .ok p ∧ p.length = 16 ∧ encryptBlock rc p key = .ok b)) ∧
    (b.length ≠ 16 →
      encryptBlock rc b key = .error .invalidBlockLength ∧ decryptBlock rc b key = .error .invalidBlockLength) ∧
    (b.length = 16 → key.length ≠ 8 →
      encryptBlock rc b key = .error .invalidKeyLength ∧ decryptBlock rc b key = .error .invalidKeyLength)

/-! ### Padding and messages -/

/-- R170, R171, R172, R173: what `pad` appends; `unpad` succeeds exactly on the padded sequences, and gives back
what was padded. -/
def Obligations.UnpadAcceptsExactlyThePadded : Prop :=
  (∀ d : List Byte, ∃ n, n = 16 - d.length % 16 ∧ 1 ≤ n ∧ n ≤ 16 ∧
    pad d = d ++ List.replicate n (BitVec.ofNat 8 n) ∧ (pad d).length = 16 * (d.length / 16 + 1)) ∧
  ∀ p d : List Byte, unpad p = .ok d ↔ p = pad d

/-- R180: the message round-trip law. -/
def Obligations.MessageTransformsRoundTrip : Prop :=
  ∀ (rc : RoundKeys) (p key : List Byte), key.length = 8 →
    ∃ c, encryptMessage rc p key = .ok c ∧ decryptMessage rc c key = .ok p

/-- R181: the length invariants. -/
def Obligations.MessageLengthsAreWholeBlocks : Prop :=
  ∀ (rc : RoundKeys) (p key : List Byte),
    (∀ c, encryptMessage rc p key = .ok c → c.length % 16 = 0 ∧ p.length + 1 ≤ c.length) ∧
    (p.length % 16 ≠ 0 → decryptMessage rc p key = .error .invalidCiphertextLength)

/-- R182: each block of an encrypted message is the encryption of the same block of the padded message. -/
def Obligations.MessageBlocksAreIndependent : Prop :=
  ∀ (rc : RoundKeys) (p key c : List Byte), encryptMessage rc p key = .ok c →
    ∀ m, m < (pad p).length / 16 →
      encryptBlock rc (((pad p).drop (16 * m)).take 16) key = .ok ((c.drop (16 * m)).take 16)

/-- R183: a damaged last byte (0 or above 16) or a damaged pad byte before it is rejected, by `unpad` and by
`decryptMessage` of the encryption of the damaged buffer. (R183's 'one of whose pad bytes is corrupted' is stated
for the pad bytes before the last: the last one changed to another count from 1 to 16 can be a legal padding.) -/
def Obligations.DamagedPaddingIsRejected : Prop :=
  (∀ (p : List Byte) (v : Byte), (v.toNat = 0 ∨ 16 < v.toNat) →
    unpad (p ++ [v]) = .error .invalidPadding) ∧
  (∀ (d : List Byte) (k : Nat) (v : Byte), k + 1 < padCount d.length → v ≠ BitVec.ofNat 8 (padCount d.length) →
    unpad ((pad d).set (d.length + k) v) = .error .invalidPadding) ∧
  (∀ (rk : RoundKeys) (p : List Byte), p.length % 16 = 0 →
    decryptMessageRK (mapBlocks (fun b => encryptBlockRK b rk) p) rk = unpad p)

/-! ### Commands -/

/-- R207: NOP's word, and its effect. -/
def Obligations.NopWritesOnlyCompletionFields : Prop :=
  decode 0x00000000#32 = .ok .nop ∧ ∀ s : State, exec .nop s
    = .next { s with busy := false, done := true, err := false, errcode := .noError }

/-- R114, R115: SUB and ISUB (but for R43's fault on a STATE never written, log 2). -/
def Obligations.SubstitutionCommandsReplaceState : Prop :=
  ∀ s : State,
    (∃ b, exec .sub s = .next
        { s with
          stateReg := b
          written := { s.written with state0 := true, state1 := true, state2 := true, state3 := true }
          busy := false, done := true, err := false, errcode := .noError } ∧
      ∀ j < 16, blockByte b j
        = sbox ((blockByte s.stateReg j).extractLsb' 4 4) ++ sbox ((blockByte s.stateReg j).extractLsb' 0 4)) ∧
    (∃ b, exec .isub s = .next
        { s with
          stateReg := b
          written := { s.written with state0 := true, state1 := true, state2 := true, state3 := true }
          busy := false, done := true, err := false, errcode := .noError } ∧
      ∀ j < 16, blockByte b j
        = invSbox ((blockByte s.stateReg j).extractLsb' 4 4)
            ++ invSbox ((blockByte s.stateReg j).extractLsb' 0 4))

/-- R116, R117: PERM and IPERM (but for R43's fault on a STATE never written, log 2). -/
def Obligations.PermutationCommandsReplaceState : Prop :=
  ∀ s : State,
    (∃ b, exec .perm s = .next
        { s with
          stateReg := b
          written := { s.written with state0 := true, state1 := true, state2 := true, state3 := true }
          busy := false, done := true, err := false, errcode := .noError } ∧
      ∀ i < 128, blockBit b (permTab i) = blockBit s.stateReg i) ∧
    (∃ b, exec .iperm s = .next
        { s with
          stateReg := b
          written := { s.written with state0 := true, state1 := true, state2 := true, state3 := true }
          busy := false, done := true, err := false, errcode := .noError } ∧
      ∀ i < 128, blockBit b i = blockBit s.stateReg (permTab i))

/-- R118: EXPAND writes all five round keys and KV, or fails on the declared key length (but for R43's fault on a
KEY never written, log 2). -/
def Obligations.ExpandCommandWritesRoundKeys : Prop :=
  ∀ s : State,
    (s.keylen = 8#8 → ∃ rk, exec .expand s = .next
        { s with rk := rk, kv := true, busy := false, done := true, err := false, errcode := .noError } ∧
      expandBytes s.cfg.rc (be64 s.key) = .ok rk) ∧
    (s.keylen ≠ 8#8 → exec .expand s = .next
        { s with busy := false, done := true, err := true, errcode := .invalidKeyLength })

/-- R140, R141, R155, R156, R157: with valid round keys ADDRK, ROUND and IROUND replace STATE. On a STATE never
written, where R43 asks for a fault, completion is the model's choice, log 2. -/
def Obligations.RoundCommandsReplaceState : Prop :=
  ∀ (s : State) (i : BitVec 3), s.kv = true →
    (i.toNat ≤ 4 → exec (.addrk i) s = .next
      { s with
        stateReg := s.stateReg ^^^ roundKey s.rk i.toNat
        written := { s.written with state0 := true, state1 := true, state2 := true, state3 := true }
        busy := false, done := true, err := false, errcode := .noError }) ∧
    (i.toNat ≤ 3 → exec (.round i) s = .next
      { s with
        stateReg := perm (sub (s.stateReg ^^^ roundKey s.rk i.toNat))
        written := { s.written with state0 := true, state1 := true, state2 := true, state3 := true }
        busy := false, done := true, err := false, errcode := .noError }) ∧
    (i.toNat ≤ 3 → exec (.iround i) s = .next
      { s with
        stateReg := isub (iperm s.stateReg) ^^^ roundKey s.rk i.toNat
        written := { s.written with state0 := true, state1 := true, state2 := true, state3 := true }
        busy := false, done := true, err := false, errcode := .noError })

/-- R155, R156, R157: with KV = 0 the round commands fail with NO_ROUND_KEYS; with an index no command word holds
(decoded as ILLEGAL, R86) they complete as ILLEGAL_COMMAND, which is the model's reading (log 12). -/
def Obligations.RoundCommandsFailWithoutRoundKeys : Prop :=
  ∀ (s : State) (i : BitVec 3),
    (s.kv = false →
      (i.toNat ≤ 4 → exec (.addrk i) s = .next
        { s with busy := false, done := true, err := true, errcode := .noRoundKeys }) ∧
      (i.toNat ≤ 3 → exec (.round i) s = .next
        { s with busy := false, done := true, err := true, errcode := .noRoundKeys }) ∧
      (i.toNat ≤ 3 → exec (.iround i) s = .next
        { s with busy := false, done := true, err := true, errcode := .noRoundKeys })) ∧
    (4 < i.toNat → exec (.addrk i) s = .next
      { s with busy := false, done := true, err := true, errcode := .illegalCommand }) ∧
    (3 < i.toNat →
      exec (.round i) s = .next { s with busy := false, done := true, err := true, errcode := .illegalCommand } ∧
      exec (.iround i) s = .next { s with busy := false, done := true, err := true, errcode := .illegalCommand })

/-- R156, R157, R142, R29: with KV = 1, ROUND 0, 1, 2, 3 and ADDRK 4 in order put the block encryption of STATE
into STATE, which is the source's `encryptBlock` under the present KEY wherever KV means what R29 says; ADDRK 4 and
IROUND 3, 2, 1, 0 after that put its block decryption there, which restores STATE. On a STATE never written, where R43
asks for a fault, completion is the model's choice, log 2. -/
def Obligations.RoundCommandSequencesAreTheBlockTransforms : Prop :=
  ∀ s : State, s.kv = true → ∃ t₁ t₂ t₃ t₄ t₅ u₁ u₂ u₃ u₄ u₅,
    exec (.round 0#3) s = .next t₁ ∧ exec (.round 1#3) t₁ = .next t₂ ∧ exec (.round 2#3) t₂ = .next t₃ ∧
    exec (.round 3#3) t₃ = .next t₄ ∧ exec (.addrk 4#3) t₄ = .next t₅ ∧
    t₅.stateReg = encryptBlockRK s.stateReg s.rk ∧ t₅.rk = s.rk ∧ t₅.kv = true ∧
    (s.RoundKeysCurrent →
      encryptBlock s.cfg.rc (blockBytes s.stateReg) (be64 s.key) = .ok (blockBytes t₅.stateReg)) ∧
    exec (.addrk 4#3) t₅ = .next u₁ ∧ exec (.iround 3#3) u₁ = .next u₂ ∧ exec (.iround 2#3) u₂ = .next u₃ ∧
    exec (.iround 1#3) u₃ = .next u₄ ∧ exec (.iround 0#3) u₄ = .next u₅ ∧
    u₅.stateReg = decryptBlockRK t₅.stateReg t₅.rk ∧ u₅.stateReg = s.stateReg

/-- R158: ENC_BLK 16 with a key of 8 bytes and IBUF[0..16) written: the source's `encryptBlock` of the input block
under KEY, into OBUF[0..16), STATE and OLEN = 16, with the round keys it computed; all else as before. On a KEY never
written, where R43 asks for a fault, completion is the model's choice, log 2. -/
def Obligations.EncBlkEncryptsTheInputBlock : Prop :=
  ∀ (s : State) (d : List Byte), s.keylen = 8#8 → d.length = 16 → s.inputIs d →
    ∃ (rk : RoundKeys) (c : Block) (m : Memory),
      expandBytes s.cfg.rc (be64 s.key) = .ok rk ∧
      encryptBlock s.cfg.rc d (be64 s.key) = .ok (blockBytes c) ∧
      outputDelivered s.mem m (blockBytes c) ∧
      exec (.encBlk 16#16) s = .next
        { s with
          rk := rk, kv := true, mem := m, stateReg := c, olen := 16#16
          written := { s.written with state0 := true, state1 := true, state2 := true, state3 := true }
          busy := false, done := true, err := false, errcode := .noError }

/-- R159: DEC_BLK 16, as ENC_BLK with the source's `decryptBlock`. On a KEY never written, where R43 asks for a
fault, completion is the model's choice, log 2. -/
def Obligations.DecBlkDecryptsTheInputBlock : Prop :=
  ∀ (s : State) (d : List Byte), s.keylen = 8#8 → d.length = 16 → s.inputIs d →
    ∃ (rk : RoundKeys) (p : Block) (m : Memory),
      expandBytes s.cfg.rc (be64 s.key) = .ok rk ∧
      decryptBlock s.cfg.rc d (be64 s.key) = .ok (blockBytes p) ∧
      outputDelivered s.mem m (blockBytes p) ∧
      exec (.decBlk 16#16) s = .next
        { s with
          rk := rk, kv := true, mem := m, stateReg := p, olen := 16#16
          written := { s.written with state0 := true, state1 := true, state2 := true, state3 := true }
          busy := false, done := true, err := false, errcode := .noError }

/-- R158, R159, R224: the length errors of the block commands, in their order. -/
def Obligations.BlockCommandsFailOnLengths : Prop :=
  ∀ (s : State) (len : BitVec 16) (e : ErrCode),
    (len.toNat ≠ 16 ∧ e = .invalidBlockLength) ∨ (len.toNat = 16 ∧ s.keylen ≠ 8#8 ∧ e = .invalidKeyLength) →
    ∃ m : Memory, outputDelivered s.mem m [] ∧
      exec (.encBlk len) s = .next
        { s with mem := m, olen := 0#16, busy := false, done := true, err := true, errcode := e } ∧
      exec (.decBlk len) s = .next
        { s with mem := m, olen := 0#16, busy := false, done := true, err := true, errcode := e }

/-- R190: ENC_MSG below the capacity, with a key of 8 bytes and its input written, delivers the source's
`encryptMessage` of the input under KEY; STATE and all else as before. On a KEY never written, where R43 asks for a
fault, completion is the model's choice, log 2. -/
def Obligations.EncMsgDeliversTheEncryptedMessage : Prop :=
  ∀ (s : State) (len : BitVec 16) (d : List Byte), s.cfg.wf = true → len.toNat < s.cfg.bufSize →
    s.keylen = 8#8 → d.length = len.toNat → s.inputIs d →
    ∃ (rk : RoundKeys) (c : List Byte) (m : Memory) (n : BitVec 16),
      expandBytes s.cfg.rc (be64 s.key) = .ok rk ∧
      encryptMessage s.cfg.rc d (be64 s.key) = .ok c ∧
      outputDelivered s.mem m c ∧ n.toNat = c.length ∧ n.toNat = 16 * (len.toNat / 16 + 1) ∧
      exec (.encMsg len) s = .next
        { s with
          rk := rk, kv := true, mem := m, olen := n
          busy := false, done := true, err := false, errcode := .noError }

/-- R191: DEC_MSG with its checks passed and its input written: if the source's `decryptMessage` succeeds its
result is delivered, else the command fails with INVALID_PADDING; RK and KV are written in both cases. On a KEY never
written, where R43 asks for a fault, completion is the model's choice, log 2. -/
def Obligations.DecMsgDeliversTheDecryptedMessage : Prop :=
  ∀ (s : State) (len : BitVec 16) (d : List Byte), s.cfg.wf = true → len.toNat % 16 = 0 →
    len.toNat ≤ s.cfg.bufSize → s.keylen = 8#8 → d.length = len.toNat → s.inputIs d →
    ∃ (rk : RoundKeys), expandBytes s.cfg.rc (be64 s.key) = .ok rk ∧
      (∀ p : List Byte, decryptMessage s.cfg.rc d (be64 s.key) = .ok p →
        ∃ (m : Memory) (n : BitVec 16), outputDelivered s.mem m p ∧ n.toNat = p.length ∧
          exec (.decMsg len) s = .next
            { s with
              rk := rk, kv := true, mem := m, olen := n
              busy := false, done := true, err := false, errcode := .noError }) ∧
      (∀ e : ErrCode, decryptMessage s.cfg.rc d (be64 s.key) = .error e →
        e = .invalidPadding ∧ ∃ m : Memory, outputDelivered s.mem m [] ∧
          exec (.decMsg len) s = .next
            { s with
              rk := rk, kv := true, mem := m, olen := 0#16
              busy := false, done := true, err := true, errcode := .invalidPadding })

/-- R190, R191, R224: the errors that the message ciphers report before reading any input, in their order. -/
def Obligations.MessageCiphersFailBeforeReading : Prop :=
  ∀ (s : State) (len : BitVec 16) (e : ErrCode), s.cfg.wf = true →
    ((s.cfg.bufSize ≤ len.toNat ∧ e = .capacity) ∨
        (len.toNat < s.cfg.bufSize ∧ s.keylen ≠ 8#8 ∧ e = .invalidKeyLength) →
      ∃ m : Memory, outputDelivered s.mem m [] ∧ exec (.encMsg len) s = .next
        { s with mem := m, olen := 0#16, busy := false, done := true, err := true, errcode := e }) ∧
    ((len.toNat % 16 ≠ 0 ∧ e = .invalidCiphertextLength) ∨
        (len.toNat % 16 = 0 ∧ s.cfg.bufSize < len.toNat ∧ e = .capacity) ∨
        (len.toNat % 16 = 0 ∧ len.toNat ≤ s.cfg.bufSize ∧ s.keylen ≠ 8#8 ∧ e = .invalidKeyLength) →
      ∃ m : Memory, outputDelivered s.mem m [] ∧ exec (.decMsg len) s = .next
        { s with mem := m, olen := 0#16, busy := false, done := true, err := true, errcode := e })

/-- R192: PAD delivers the padded input, or fails with CAPACITY; it needs no key and changes none. -/
def Obligations.PadCommandDeliversThePaddedInput : Prop :=
  ∀ (s : State) (len : BitVec 16), s.cfg.wf = true →
    (∀ d : List Byte, len.toNat < s.cfg.bufSize → d.length = len.toNat → s.inputIs d →
      ∃ (m : Memory) (n : BitVec 16), n.toNat = 16 * (len.toNat / 16 + 1) ∧ outputDelivered s.mem m (pad d) ∧
        exec (.pad len) s = .next
          { s with mem := m, olen := n, busy := false, done := true, err := false, errcode := .noError }) ∧
    (s.cfg.bufSize ≤ len.toNat →
      ∃ m : Memory, outputDelivered s.mem m [] ∧ exec (.pad len) s = .next
        { s with mem := m, olen := 0#16, busy := false, done := true, err := true, errcode := .capacity })

/-- R193, R224: UNPAD delivers what was padded, or fails: with INVALID_PADDING on an empty or misaligned length,
then with CAPACITY, then with INVALID_PADDING on input that no padding gives. -/
def Obligations.UnpadCommandStripsThePadding : Prop :=
  ∀ (s : State) (len : BitVec 16), s.cfg.wf = true →
    (∀ d p : List Byte, len.toNat ≤ s.cfg.bufSize → d.length = len.toNat → s.inputIs d → d = pad p →
      ∃ (m : Memory) (n : BitVec 16), n.toNat = p.length ∧ outputDelivered s.mem m p ∧
        exec (.unpad len) s = .next
          { s with mem := m, olen := n, busy := false, done := true, err := false, errcode := .noError }) ∧
    (∀ e : ErrCode,
      ((len.toNat = 0 ∨ len.toNat % 16 ≠ 0) ∧ e = .invalidPadding) ∨
      (len.toNat ≠ 0 ∧ len.toNat % 16 = 0 ∧ s.cfg.bufSize < len.toNat ∧ e = .capacity) ∨
      (len.toNat ≠ 0 ∧ len.toNat % 16 = 0 ∧ len.toNat ≤ s.cfg.bufSize ∧ e = .invalidPadding ∧
        ∃ d : List Byte, d.length = len.toNat ∧ s.inputIs d ∧ ∀ p, d ≠ pad p) →
      ∃ m : Memory, outputDelivered s.mem m [] ∧ exec (.unpad len) s = .next
        { s with mem := m, olen := 0#16, busy := false, done := true, err := true, errcode := e })

/-- R180 on the engine: DEC_MSG, in any state with the same key and round constants whose IBUF holds what ENC_MSG
delivered, delivers the plaintext again. On a KEY never written, where R43 asks for a fault, completion is the model's
choice, log 2. -/
def Obligations.DecMsgUndoesEncMsg : Prop :=
  ∀ (s t s' : State) (len : BitVec 16) (d c : List Byte),
    s.cfg.wf = true → len.toNat < s.cfg.bufSize → s.keylen = 8#8 → d.length = len.toNat → s.inputIs d →
    exec (.encMsg len) s = .next t →
    s'.cfg = s.cfg → s'.key = s.key → s'.keylen = 8#8 →
    c.length = t.olen.toNat → t.outputIs c → s'.inputIs c →
    ∃ t', exec (.decMsg t.olen) s' = .next t' ∧ t'.err = false ∧ t'.olen = len ∧ t'.outputIs d

/-- R43, U3 (log 3): a command whose checks pass and that would read an IBUF byte never written stops with a
fault. -/
def Obligations.UnwrittenInputFaults : Prop :=
  ∀ (s : State) (k : Nat), Memory.read s.mem (ibufBase + k) = none →
    (k < 16 → s.keylen = 8#8 →
      exec (.encBlk 16#16) s = .fault .unwrittenInput ∧ exec (.decBlk 16#16) s = .fault .unwrittenInput) ∧
    (∀ len : BitVec 16, k < len.toNat → s.cfg.wf = true →
      (len.toNat < s.cfg.bufSize → s.keylen = 8#8 → exec (.encMsg len) s = .fault .unwrittenInput) ∧
      (len.toNat ≤ s.cfg.bufSize → len.toNat % 16 = 0 → s.keylen = 8#8 →
        exec (.decMsg len) s = .fault .unwrittenInput) ∧
      (len.toNat < s.cfg.bufSize → exec (.pad len) s = .fault .unwrittenInput) ∧
      (len.toNat ≤ s.cfg.bufSize → len.toNat % 16 = 0 → exec (.unpad len) s = .fault .unwrittenInput))

/-- No command is refused, and a command stops only by reading an IBUF byte never written since reset (R43; log 2
for why no other read stops). -/
def Obligations.CommandsStopOnlyOnUnwrittenInput : Prop :=
  ∀ (i : Instr) (s : State), (∃ t, exec i s = .next t) ∨
    (exec i s = .fault .unwrittenInput ∧ ∃ k < inputLength i, Memory.read s.mem (ibufBase + k) = none)

/-- R205, R227: every completion leaves the engine idle with DONE = 1, and ERR = 1 exactly when ERRCODE is not 0. -/
def Obligations.EveryCompletionSetsTheStatus : Prop :=
  ∀ (i : Instr) (s t : State), exec i s = .next t →
    t.busy = false ∧ t.done = true ∧ (t.err = true ↔ t.errcode.code ≠ 0#4)

/-- R226: the error effect of every command. -/
def Obligations.ErrorEffectOfEveryCommand : Prop :=
  ∀ (i : Instr) (s t : State), exec i s = .next t → t.errcode ≠ .noError →
    (writesOlen i = true → t.olen = 0#16 ∧ outputDelivered s.mem t.mem []) ∧
    (writesOlen i = false → t.olen = s.olen ∧ t.mem = s.mem) ∧
    t.stateReg = s.stateReg ∧
    ((∃ len, i = .decMsg len) ∧ t.errcode = .invalidPadding → t.rk = expand s.cfg.rc s.key ∧ t.kv = true) ∧
    (¬((∃ len, i = .decMsg len) ∧ t.errcode = .invalidPadding) → t.rk = s.rk ∧ t.kv = s.kv) ∧
    t.key = s.key ∧ t.keylen = s.keylen ∧ t.ie = s.ie ∧ t.ovr = s.ovr ∧
    (∀ a, a < obufBase → Memory.read t.mem a = Memory.read s.mem a) ∧
    t.busy = false ∧ t.done = true ∧ t.err = true

/-- R210, R186: no command writes IBUF, KEY, KEYLEN, IRQEN or OVR (nor the parameters, CMDL, the reset input, and
what belongs to HOST); only the commands named write STATE, RK and KV, and OBUF and OLEN. -/
def Obligations.CommandsWriteOnlyTheirWriteSet : Prop :=
  ∀ (i : Instr) (s t : State), exec i s = .next t →
    t.key = s.key ∧ t.keylen = s.keylen ∧ t.ie = s.ie ∧ t.ovr = s.ovr ∧ t.cfg = s.cfg ∧ t.cmdl = s.cmdl ∧
    t.rst = s.rst ∧ t.pending = s.pending ∧ t.reply = s.reply ∧ t.draws = s.draws ∧
    t.written.key0 = s.written.key0 ∧ t.written.key1 = s.written.key1 ∧
    (∀ a, a < obufBase ∨ obufEnd ≤ a → s.cfg.wf = true → Memory.read t.mem a = Memory.read s.mem a) ∧
    (writesOlen i = false → t.olen = s.olen ∧ t.mem = s.mem) ∧
    (i ∈ [.nop, .expand] ∨ (∃ len, i = .encMsg len ∨ i = .decMsg len ∨ i = .pad len ∨ i = .unpad len) →
      t.stateReg = s.stateReg ∧ t.written = s.written) ∧
    (i ∈ [.nop, .sub, .isub, .perm, .iperm] ∨ (∃ len, i = .pad len ∨ i = .unpad len) ∨
        (∃ k, i = .addrk k ∨ i = .round k ∨ i = .iround k) →
      t.rk = s.rk ∧ t.kv = s.kv)

/-- R210: no command reads OBUF, OLEN, IRQEN or OVR. Two states that differ only in these (and in CMDL) give the
same outcome: the same fault, or next states that agree on STATE, RK, KV, the completion fields and, after an
OLEN-writing command, OLEN and all of OBUF. -/
def Obligations.CommandsIgnoreOutputsAndInterruptEnable : Prop :=
  ∀ (i : Instr) (s : State) (m : Memory) (n : BitVec 16) (ie ovr : Bool) (w : Word),
    s.cfg.wf = true → (∀ a, a < obufBase → Memory.read m a = Memory.read s.mem a) →
    (∀ f, exec i s = .fault f → exec i { s with mem := m, olen := n, ie := ie, ovr := ovr, cmdl := w } = .fault f) ∧
    (∀ t, exec i s = .next t →
      ∃ t', exec i { s with mem := m, olen := n, ie := ie, ovr := ovr, cmdl := w } = .next t' ∧
        t'.stateReg = t.stateReg ∧ t'.rk = t.rk ∧ t'.kv = t.kv ∧ t'.busy = t.busy ∧ t'.done = t.done ∧
        t'.err = t.err ∧ t'.errcode = t.errcode ∧
        (writesOlen i = true → t'.olen = t.olen ∧
          ∀ a, obufBase ≤ a → a < obufEnd → Memory.read t'.mem a = Memory.read t.mem a))

/-! ### The bus -/

/-- R220: the numbers of the error codes. R24: the layout of STATUS, for the two values its KV field can read as
(R265). -/
def Obligations.StatusWordLayout : Prop :=
  (ErrCode.noError.code = 0#4 ∧ ErrCode.invalidKeyLength.code = 1#4 ∧ ErrCode.invalidBlockLength.code = 2#4 ∧
    ErrCode.invalidCiphertextLength.code = 3#4 ∧ ErrCode.invalidPadding.code = 4#4 ∧ ErrCode.capacity.code = 5#4 ∧
    ErrCode.noRoundKeys.code = 6#4 ∧ ErrCode.illegalCommand.code = 7#4) ∧
  ∀ (s : State) (kv : Bool),
    (s.statusWord kv).getLsbD 0 = s.busy ∧ (s.statusWord kv).getLsbD 1 = s.done ∧
    (s.statusWord kv).getLsbD 2 = s.err ∧ (s.statusWord kv).getLsbD 3 = s.ovr ∧
    (s.statusWord kv).getLsbD 4 = kv ∧ (s.statusWord kv).extractLsb' 5 3 = 0#3 ∧
    (s.statusWord kv).extractLsb' 8 4 = s.errcode.code ∧ (s.statusWord kv).extractLsb' 12 20 = 0#20

/-- R54, R53, R37: what every location reads as while the engine is idle; a read changes nothing of the engine. A
buffer word has the bytes that hold a value in their lanes, lane 0 in bits 31:24, whatever its other lanes read as.
(`draws` counts the model's free values, log 4, and `reply` holds the bus's answer, log 15.) -/
def Obligations.IdleReads : Prop :=
  ∀ s : State, s.rst = false → s.busy = false →
    (∀ (base a : Nat), (base = 0x1000 ∨ base = 0x2000) → s.cfg.wf = true → a < s.cfg.bufSize → a % 4 = 0 →
      ∃ v : Word, s.hostAccess (.read 32 (s.cfg.base + base + a))
          = .next { s with draws := s.draws + 1, reply := .data v } ∧
        ∀ j < 4, ∀ b, Memory.read s.mem (base + a + j) = some b → v.extractLsb' (24 - 8 * j) 8 = b) ∧
    ∀ (off : Nat) (v : Word),
      (off = 0x000 ∧ v = 0x53504E31#32) ∨ (off = 0x004 ∧ v = 0#32) ∨ (off = 0x008 ∧ v = s.statusWord s.kv) ∨
      (off = 0x00C ∧ v = if s.ie then 1#32 else 0#32) ∨ (off = 0x010 ∧ v = s.olen.setWidth 32) ∨
      (off = 0x014 ∧ v = s.keylen.setWidth 32) ∨ (off = 0x020 ∧ v = s.key.extractLsb' 32 32) ∨
      (off = 0x024 ∧ v = s.key.extractLsb' 0 32) ∨
      (∃ w < 4, off = 0x030 + 4 * w ∧ v = s.stateReg.extractLsb' (96 - 32 * w) 32) ∨
      (∃ i < 5, ∃ w < 4, off = 0x040 + 0x10 * i + 4 * w ∧
        v = (roundKey s.rk i).extractLsb' (96 - 32 * w) 32) →
      s.hostAccess (.read 32 (s.cfg.base + off)) = .next { s with draws := s.draws + 1, reply := .data v }

/-- R265: what reads exactly while a command runs: ID, CMD, IRQEN, KEYLEN, KEY, every STATUS field but KV, and each
IBUF byte that holds a value, in its lane, whatever the word's other lanes read as; a read changes nothing of the
engine. (`draws` and `reply` are the model's own fields, log 4 and log 15; that the reserved bits of STATUS read 0 then
too is log 8.) -/
def Obligations.BusyReadsThatAreExact : Prop :=
  ∀ s : State, s.rst = false → s.busy = true →
    (∀ (off : Nat) (v : Word),
      (off = 0x000 ∧ v = 0x53504E31#32) ∨ (off = 0x004 ∧ v = 0#32) ∨
      (off = 0x00C ∧ v = if s.ie then 1#32 else 0#32) ∨
      (off = 0x014 ∧ v = s.keylen.setWidth 32) ∨ (off = 0x020 ∧ v = s.key.extractLsb' 32 32) ∨
      (off = 0x024 ∧ v = s.key.extractLsb' 0 32) →
      s.hostAccess (.read 32 (s.cfg.base + off)) = .next { s with draws := s.draws + 1, reply := .data v }) ∧
    (∃ kv, s.hostAccess (.read 32 (s.cfg.base + 0x008))
      = .next { s with draws := s.draws + 1, reply := .data (s.statusWord kv) }) ∧
    (∀ a : Nat, a < s.cfg.bufSize → s.cfg.bufSize ≤ 4096 → a % 4 = 0 →
      ∃ v : Word, s.hostAccess (.read 32 (s.cfg.base + 0x1000 + a))
          = .next { s with draws := s.draws + 1, reply := .data v } ∧
        ∀ j < 4, ∀ b, Memory.read s.mem (ibufBase + a + j) = some b → v.extractLsb' (24 - 8 * j) 8 = b)

/-- R265: while a command runs a read of OLEN, of a STATE or RK word, or of a backed OBUF word answers some word, and
has no other effect. (`draws` and `reply` are the model's own fields, log 4 and log 15; that bits 31:16 of OLEN read 0
then too is log 8.) -/
def Obligations.BusyOutputReadsAnswerAndChangeNothing : Prop :=
  ∀ s : State, s.rst = false → s.busy = true →
    (∃ n : BitVec 16, s.hostAccess (.read 32 (s.cfg.base + 0x010))
      = .next { s with draws := s.draws + 1, reply := .data (n.setWidth 32) }) ∧
    (∀ off : Nat,
      (∃ w < 4, off = 0x030 + 4 * w) ∨ (∃ i < 5, ∃ w < 4, off = 0x040 + 0x10 * i + 4 * w) ∨
      (∃ a < s.cfg.bufSize, s.cfg.bufSize ≤ 4096 ∧ a % 4 = 0 ∧ off = 0x2000 + a) →
      ∃ v : Word, s.hostAccess (.read 32 (s.cfg.base + off))
        = .next { s with draws := s.draws + 1, reply := .data v })

/-- R55, R24, R31, R33, R34, R35: writes to the registers while the engine is idle; KEY0, KEY1 and KEYLEN clear KV
(R29). The key is the integer `KEY0 * 2^32 + KEY1` (R34). (`reply` and `written` are the model's own fields, log 15 and
log 2.) -/
def Obligations.IdleRegisterWrites : Prop :=
  ∀ (s : State) (v : Word), s.rst = false → s.busy = false →
    s.hostAccess (.write 32 (s.cfg.base + 0x008) v) = .next
      { s with done := s.done && !v.getLsbD 1, ovr := s.ovr && !v.getLsbD 3, reply := .written } ∧
    s.hostAccess (.write 32 (s.cfg.base + 0x00C) v) = .next { s with ie := v.getLsbD 0, reply := .written } ∧
    s.hostAccess (.write 32 (s.cfg.base + 0x014) v) = .next
      { s with keylen := v.extractLsb' 0 8, kv := false, reply := .written } ∧
    (∃ k : Key, k.toNat = v.toNat * 2 ^ 32 + s.key.toNat % 2 ^ 32 ∧
      s.hostAccess (.write 32 (s.cfg.base + 0x020) v) = .next
        { s with key := k, kv := false, written := { s.written with key0 := true }, reply := .written }) ∧
    (∃ k : Key, k.toNat = s.key.toNat / 2 ^ 32 * 2 ^ 32 + v.toNat ∧
      s.hostAccess (.write 32 (s.cfg.base + 0x024) v) = .next
        { s with key := k, kv := false, written := { s.written with key1 := true }, reply := .written }) ∧
    (∀ w < 4, ∃ (b : Block) (r : Written),
      (∀ j < 16, blockByte b j = if j / 4 = w then v.extractLsb' (24 - 8 * (j % 4)) 8 else blockByte s.stateReg j) ∧
      s.hostAccess (.write 32 (s.cfg.base + 0x030 + 4 * w) v) = .next
        { s with stateReg := b, written := r, reply := .written } ∧
      r.key0 = s.written.key0 ∧ r.key1 = s.written.key1)

/-- R53, R55, R60: an IBUF word written while idle is read back, in its lanes, and no other byte changes. -/
def Obligations.InputWordIsReadBack : Prop :=
  ∀ (s : State) (a : Nat) (v : Word), s.rst = false → s.busy = false → s.cfg.wf = true →
    a < s.cfg.bufSize → a % 4 = 0 →
    ∃ m : Memory, s.hostAccess (.write 32 (s.cfg.base + 0x1000 + a) v)
        = .next { s with mem := m, reply := .written } ∧
      (∀ j < 4, Memory.read m (ibufBase + a + j) = some (v.extractLsb' (24 - 8 * j) 8)) ∧
      (∀ b, b < ibufBase + a ∨ ibufBase + a + 4 ≤ b → Memory.read m b = Memory.read s.mem b) ∧
      State.hostAccess { s with mem := m, reply := .written } (.read 32 (s.cfg.base + 0x1000 + a))
        = .next { s with mem := m, draws := s.draws + 1, reply := .data v }

/-- R50, R56, R57, R58: inside the engine's window exactly the accesses of R56 get a bus error; the engine's state
is unchanged by them, and HOST faults (U7, log 6). -/
def Obligations.BusErrorsAreExactlyTheMalformedAccesses : Prop :=
  ∀ (s : State) (width off : Nat) (v : Word), s.rst = false → s.cfg.wf = true → off < 0x4000 →
    let bad := width ≠ 32 ∨ off % 4 ≠ 0 ∨ (0x018 ≤ off ∧ off < 0x020) ∨ (0x028 ≤ off ∧ off < 0x030) ∨
      (0x090 ≤ off ∧ off < 0x1000) ∨ 0x3000 ≤ off ∨
      (0x1000 ≤ off ∧ off < 0x2000 ∧ s.cfg.bufSize ≤ off - 0x1000) ∨
      (0x2000 ≤ off ∧ off < 0x3000 ∧ s.cfg.bufSize ≤ off - 0x2000)
    let readOnly := off < 0x004 ∨ (0x010 ≤ off ∧ off < 0x014) ∨ (0x040 ≤ off ∧ off < 0x090) ∨
      (0x2000 ≤ off ∧ off < 0x3000)
    (bad ↔ ∃ e, s.bus (.read width (s.cfg.base + off)) = (s, .error e)) ∧
    (bad ∨ readOnly ↔ ∃ e, s.bus (.write width (s.cfg.base + off) v) = (s, .error e)) ∧
    (∀ a e, (s.bus a).2 = .error e → (s.bus a).1 = s ∧ s.hostAccess a = .fault (.busError e))

/-- R200, R201: a CMD write is accepted when BUSY = 0, and otherwise dropped with OVR <- 1 as its one effect on the
engine (`reply`, the bus's answer to HOST, is the model's own field, log 15). -/
def Obligations.CommandWriteIsAcceptedOrDropped : Prop :=
  ∀ (s : State) (v : Word), s.rst = false →
    (s.busy = false → s.hostAccess (.write 32 (s.cfg.base + 0x004) v) = .next
      { s with cmdl := v, busy := true, done := false, err := false, errcode := .noError, reply := .written }) ∧
    (s.busy = true → s.hostAccess (.write 32 (s.cfg.base + 0x004) v) = .next
      { s with ovr := true, reply := .written })

/-- R264, U4 (log 7): while BUSY = 1 a write to KEYLEN, KEY, STATE or IBUF is a HOST fault; writes to STATUS and
IRQEN are safe. -/
def Obligations.InputWritesWhileBusyFault : Prop :=
  ∀ (s : State) (v : Word) (off : Nat), s.rst = false → s.busy = true → s.cfg.wf = true →
    (off % 4 = 0 →
      (off = 0x014 ∨ (0x020 ≤ off ∧ off < 0x028) ∨ (0x030 ≤ off ∧ off < 0x040) ∨
        (0x1000 ≤ off ∧ off < 0x1000 + s.cfg.bufSize)) →
      s.hostAccess (.write 32 (s.cfg.base + off) v) = .fault .inputWriteWhileBusy) ∧
    s.hostAccess (.write 32 (s.cfg.base + 0x008) v) = .next
      { s with done := s.done && !v.getLsbD 1, ovr := s.ovr && !v.getLsbD 3, reply := .written } ∧
    s.hostAccess (.write 32 (s.cfg.base + 0x00C) v) = .next { s with ie := v.getLsbD 0, reply := .written }

/-- R231, R232: the interrupt output: raised by every completion when enabled, lowered by each of the four ways the
rule lists. -/
def Obligations.InterruptFollowsDoneAndEnable : Prop :=
  (∀ s : State, s.irq = (s.ie && s.done)) ∧
  (∀ (i : Instr) (s t : State), exec i s = .next t → t.irq = s.ie) ∧
  (∀ (s t : State) (v : Word), s.rst = false →
    (v.getLsbD 1 = true → s.hostAccess (.write 32 (s.cfg.base + 0x008) v) = .next t → t.irq = false) ∧
    (s.busy = false → s.hostAccess (.write 32 (s.cfg.base + 0x004) v) = .next t → t.irq = false) ∧
    (v.getLsbD 0 = false → s.hostAccess (.write 32 (s.cfg.base + 0x00C) v) = .next t →
      t.irq = false ∧ t.done = s.done)) ∧
  (∀ s : State, s.afterReset.irq = false)

/-! ### Reset and invariants -/

/-- R260: asserting reset at any time abandons the command in flight and sets every piece of the engine's state to
its reset value (which for KEY, STATE, RK and CMDL is the model's choice, log 1); no HOST access is performed while
it is asserted (the events, and the answer to such an access, are log 10). -/
def Obligations.ResetOverridesEverything : Prop :=
  ∀ s : State,
    (∀ rest, s.pending = .assertReset :: rest → step s = .next
      { State.reset with cfg := s.cfg, rst := true, pending := rest, reply := s.reply, draws := s.draws }) ∧
    (∀ a rest, s.rst = true → s.pending = .host a :: rest → step s = .next
      { s with pending := rest, reply := .notPerformed })

/-- R261: the state after reset, and the next CMD write is accepted. OVR = 0, OLEN = 0 and buffers that hold nothing
are R42's (R43); that the reset input is released in the reset state is the model's choice, log 10. -/
def Obligations.ResetLeavesTheEngineIdle : Prop :=
  State.reset.busy = false ∧ State.reset.done = false ∧ State.reset.err = false ∧
  State.reset.errcode.code = 0#4 ∧ State.reset.irq = false ∧ State.reset.ie = false ∧
  State.reset.keylen = 0#8 ∧ State.reset.kv = false ∧ State.reset.ovr = false ∧ State.reset.olen = 0#16 ∧
  State.reset.rst = false ∧ (∀ a, Memory.read State.reset.mem a = none) ∧
  ∀ v : Word, ∃ t, State.reset.hostAccess (.write 32 (State.reset.cfg.base + 0x004) v) = .next t ∧
    t.busy = true ∧ t.cmdl = v

/-- The reset state has the invariants below. The model's choices of reset values (log 1, log 9) meet them as any
other legal choice would. -/
def Obligations.InvariantsHoldAtReset : Prop :=
  State.reset.BuffersWellFormed ∧ State.reset.StatusConsistent ∧ State.reset.RoundKeysCurrent ∧
  State.reset.ResetHeld

/-- R32, R36, R37, R58: every step keeps the buffers' invariant. -/
def Obligations.StepKeepsBuffersWellFormed : Prop :=
  ∀ s t : State, s.BuffersWellFormed → step s = .next t → t.BuffersWellFormed

/-- R26, R27, R200: every step keeps the STATUS fields in agreement. -/
def Obligations.StepKeepsStatusConsistent : Prop :=
  ∀ s t : State, s.StatusConsistent → step s = .next t → t.StatusConsistent

/-- R29: every step keeps the meaning of KV. -/
def Obligations.StepKeepsRoundKeysCurrent : Prop :=
  ∀ s t : State, s.RoundKeysCurrent → step s = .next t → t.RoundKeysCurrent

/-- R260: every step keeps the engine at its reset values (those of log 1 among them) while reset is asserted. -/
def Obligations.StepKeepsResetHeld : Prop :=
  ∀ s t : State, s.ResetHeld → step s = .next t → t.ResetHeld
end

