-- ==== Sys2Proof/Laws/Bits.lean ====
section
/-! SUPPORT. Byte order and bit order: taking a block, key or word apart and putting it together again. -/

namespace Sys2Proof.Machine

/-- The bits of an integer put together from big-endian bytes. -/
theorem getLsbD_foldl_bytes (w : Nat) (d : List Byte) (acc : BitVec w) (i : Nat) (hi : i < w) :
    (d.foldl (fun (acc : BitVec w) (x : Byte) => acc <<< 8 ||| x.setWidth w) acc).getLsbD i
      = if i < 8 * d.length then (d.getD (d.length - 1 - i / 8) 0#8).getLsbD (i % 8)
        else acc.getLsbD (i - 8 * d.length) := by
  induction d generalizing acc with
  | nil => simp
  | cons v d ih =>
    rw [List.foldl_cons, ih]
    simp only [List.length_cons]
    by_cases h1 : i < 8 * d.length
    · rw [if_pos h1, if_pos (by omega)]
      rw [show d.length + 1 - 1 - i / 8 = (d.length - 1 - i / 8) + 1 by omega, List.getD_cons_succ]
    · rw [if_neg h1, BitVec.getLsbD_or, BitVec.getLsbD_shiftLeft, BitVec.getLsbD_setWidth]
      by_cases h2 : i < 8 * (d.length + 1)
      · rw [if_pos h2, show d.length + 1 - 1 - i / 8 = 0 by omega, List.getD_cons_zero,
          show i - 8 * d.length = i % 8 by omega]
        have h3 : i % 8 < 8 := by omega
        have h4 : i % 8 < w := by omega
        simp [h3, h4]
      · rw [if_neg h2]
        have h3 : ¬ i - 8 * d.length < 8 := by omega
        have h4 : i - 8 * d.length < w := by omega
        simp only [h4, h3, decide_true, decide_false, Bool.true_and, Bool.not_false]
        rw [BitVec.getLsbD_of_ge v _ (by omega), Bool.or_false,
          show i - 8 * d.length - 8 = i - 8 * (d.length + 1) by omega]

@[simp] theorem blockBytes_length (b : Block) : (blockBytes b).length = 16 := by simp [blockBytes]

@[simp] theorem be64_length (k : Key) : (be64 k).length = 8 := by simp [be64]

/-- The bytes of a block, one by one. -/
theorem blockBytes_getD (b : Block) {j : Nat} (h : j < 16) : (blockBytes b).getD j 0#8 = blockByte b j := by
  simp [blockBytes, h]

/-- The bytes of a key, one by one. -/
theorem be64_getD (k : Key) {j : Nat} (h : j < 8) : (be64 k).getD j 0#8 = k.extractLsb' (56 - 8 * j) 8 := by
  simp [be64, h]

/-- Byte `j` of the block made of 16 bytes is byte `j` of them. -/
theorem blockByte_blockOfBytes {d : List Byte} (hd : d.length = 16) {j : Nat} (hj : j < 16) :
    blockByte (blockOfBytes d) j = d.getD j 0#8 := by
  refine BitVec.eq_of_getLsbD_eq fun i hi => ?_
  rw [blockByte, BitVec.getLsbD_extractLsb', blockOfBytes, getLsbD_foldl_bytes _ _ _ _ (by omega), hd,
    if_pos (by omega), show 16 - 1 - (120 - 8 * j + i) / 8 = j by omega,
    show (120 - 8 * j + i) % 8 = i by omega]
  simp [hi]

@[simp] theorem blockOfBytes_blockBytes (b : Block) : blockOfBytes (blockBytes b) = b := by
  refine BitVec.eq_of_getLsbD_eq fun i hi => ?_
  rw [blockOfBytes, getLsbD_foldl_bytes _ _ _ _ hi, blockBytes_length, if_pos (by omega),
    blockBytes_getD b (by omega), blockByte, BitVec.getLsbD_extractLsb']
  have : i % 8 < 8 := by omega
  simp only [this, decide_true, Bool.true_and]
  congr 1; omega

theorem blockBytes_blockOfBytes {d : List Byte} (hd : d.length = 16) : blockBytes (blockOfBytes d) = d := by
  refine List.ext_getElem (by simp [hd]) fun j h1 h2 => ?_
  have hj : j < 16 := by simpa using h1
  have := blockByte_blockOfBytes hd hj
  rw [← blockBytes_getD _ hj] at this
  rwa [List.getD_eq_getElem _ _ h1, List.getD_eq_getElem _ _ h2] at this

@[simp] theorem int64_be64 (k : Key) : int64 (be64 k) = k := by
  refine BitVec.eq_of_getLsbD_eq fun i hi => ?_
  rw [int64, getLsbD_foldl_bytes _ _ _ _ hi, be64_length, if_pos (by omega), be64_getD k (by omega),
    BitVec.getLsbD_extractLsb']
  have : i % 8 < 8 := by omega
  simp only [this, decide_true, Bool.true_and]
  congr 1; omega

/-- Two blocks with the same bytes are equal. -/
theorem eq_of_blockByte_eq {b c : Block} (h : ∀ j < 16, blockByte b j = blockByte c j) : b = c := by
  have hbytes : blockBytes b = blockBytes c := List.map_congr_left fun j hj => h j (List.mem_range.mp hj)
  rw [← blockOfBytes_blockBytes b, hbytes, blockOfBytes_blockBytes]

/-- Two blocks with the same bits are equal. -/
theorem eq_of_blockBit_eq {b c : Block} (h : ∀ p < 128, blockBit b p = blockBit c p) : b = c :=
  BitVec.eq_of_getMsbD_eq fun p hp => h p hp

/-- Each byte of a XOR is the XOR of the bytes (R11, R109). -/
theorem blockByte_xor (b c : Block) (j : Nat) : blockByte (b ^^^ c) j = blockByte b j ^^^ blockByte c j := by
  simp [blockByte, BitVec.extractLsb'_xor]

/-- The one bit of `bitBlock`. -/
theorem blockBit_bitBlock {p q : Nat} (hp : p < 128) (hq : q < 128) (v : Bool) :
    blockBit (bitBlock p v) q = (v && decide (q = p)) := by
  rw [blockBit, BitVec.getMsbD_eq_getLsbD, bitBlock, BitVec.getLsbD_shiftLeft, BitVec.getLsbD_setWidth,
    BitVec.getLsbD_ofBool]
  by_cases h : q = p
  · subst h
    have : 127 - q < 128 := by omega
    simp [this, hq]
  · by_cases h2 : 128 - 1 - q < 127 - p
    · simp [h, h2]
    · have : ¬ (128 - 1 - q - (127 - p) = 0) := by omega
      simp [h, this]

/-- The bits of a block put together by OR. -/
theorem blockBit_foldl_or (g : Nat → Block) (l : List Nat) (acc : Block) (q : Nat) :
    blockBit (l.foldl (fun out i => out ||| g i) acc) q = (blockBit acc q || l.any fun i => blockBit (g i) q) := by
  induction l generalizing acc with
  | nil => simp
  | cons i l ih =>
    have hor : blockBit (acc ||| g i) q = (blockBit acc q || blockBit (g i) q) := BitVec.getMsbD_or
    simp [ih, hor, Bool.or_assoc]

/-- The lanes of a register word, put together again (R53). -/
@[simp] theorem wordOfLanes_lanes (v : Word) : wordOfLanes (lane v 0) (lane v 1) (lane v 2) (lane v 3) = v := by
  simp only [wordOfLanes, lane]
  refine BitVec.eq_of_getLsbD_eq fun i hi => ?_
  simp only [BitVec.getLsbD_append, BitVec.getLsbD_extractLsb']
  split
  · simp [*]
  · split
    · have : i - 8 < 8 := by omega
      simp only [this, decide_true, Bool.true_and]; congr 1; omega
    · split
      · have : i - 8 - 8 < 8 := by omega
        simp only [this, decide_true, Bool.true_and]; congr 1; omega
      · have : i - 8 - 8 - 8 < 8 := by omega
        simp only [this, decide_true, Bool.true_and]; congr 1; omega

end Sys2Proof.Machine
end

