-- ==== Sys2Proof/Laws/Cipher.lean ====
section
/-! SUPPORT. What the cipher's layers do to bytes and bits. -/

namespace Sys2Proof.Machine

/-- A block rebuilt from its bytes, each through `f`. -/
theorem blockByte_mapBytes (f : Byte → Byte) (b : Block) {j : Nat} (hj : j < 16) :
    blockByte (blockOfBytes ((blockBytes b).map f)) j = f (blockByte b j) := by
  rw [blockByte_blockOfBytes (by simp) hj]
  simp [blockBytes, hj]

/-- A position of the P wiring is a position of the block (R104). -/
theorem permTab_lt {i : Nat} (_h : i < 128) : permTab i < 128 := by
  unfold permTab; split <;> omega

theorem permTab_inj {i j : Nat} (hi : i < 128) (hj : j < 128) (h : permTab i = permTab j) : i = j := by
  unfold permTab at h; split at h <;> split at h <;> omega

/-- The length of a padded sequence is the next multiple of 16 (R171). -/
theorem pad_length (d : List Byte) : (pad d).length = d.length + padCount d.length := by simp [pad]

theorem padCount_pos (n : Nat) : 1 ≤ padCount n ∧ padCount n ≤ 16 := by unfold padCount; omega

theorem add_padCount_mod (n : Nat) : (n + padCount n) % 16 = 0 := by unfold padCount; omega

@[simp] theorem splitBlocks_length (n : Nat) (d : List Byte) : (splitBlocks n d).length = n := by
  induction n generalizing d with
  | zero => rfl
  | succ n ih => simp [splitBlocks, ih]

end Sys2Proof.Machine
end

