-- ==== Sys2Proof/Laws/Decode.lean ====
section
/-! SUPPORT. What each shape of command word decodes to, and a word as its four fields. -/

namespace Sys2Proof

/-- A word is its fields LEN, RSV, RIDX and OPC (R80). -/
theorem word_eq_fields (w : Word) : w = lenField w ++ rsvField w ++ ridxField w ++ opcField w := by
  unfold lenField rsvField ridxField opcField
  refine BitVec.eq_of_getLsbD_eq fun i hi => ?_
  simp only [BitVec.getLsbD_append, BitVec.getLsbD_extractLsb']
  split
  · simp [*]
  · split
    · have : i - 8 < 3 := by omega
      simp only [this, decide_true, Bool.true_and]; congr 1; omega
    · split
      · have : i - 8 - 3 < 5 := by omega
        simp only [this, decide_true, Bool.true_and]; congr 1; omega
      · have : i - 8 - 3 - 5 < 16 := by omega
        simp only [this, decide_true, Bool.true_and]; congr 1; omega

theorem decodePlain_eq_ok_iff (w : Word) (i j : Instr) :
    decodePlain w i = .ok j ↔ ridxField w = 0#3 ∧ lenField w = 0#16 ∧ i = j := by
  unfold decodePlain
  by_cases h1 : ridxField w = 0#3 <;> by_cases h2 : lenField w = 0#16 <;> simp [h1, h2]

theorem decodeLen_eq_ok_iff (w : Word) (i : BitVec 16 → Instr) (j : Instr) :
    decodeLen w i = .ok j ↔ ridxField w = 0#3 ∧ i (lenField w) = j := by
  unfold decodeLen
  by_cases h1 : ridxField w = 0#3 <;> simp [h1]

theorem decodeRidx_eq_ok_iff (w : Word) (top : BitVec 3) (i : BitVec 3 → Instr) (j : Instr) :
    decodeRidx w top i = .ok j ↔ lenField w = 0#16 ∧ ridxField w ≤ top ∧ i (ridxField w) = j := by
  unfold decodeRidx
  by_cases h1 : lenField w = 0#16 <;> by_cases h2 : ridxField w ≤ top <;> simp [h1, h2]

end Sys2Proof
end

