-- ==== Sys2Proof/Laws/Memory.lean ====
section
/-! SUPPORT. The laws of the buffers' memory: read after write, what forgetting leaves, the canonical form kept. -/

namespace Sys2Proof.Machine

@[simp] theorem Memory.read_nil (a : Nat) : Memory.read [] a = none := rfl

theorem Memory.read_cons (c : Host.Cell) (m : Memory) (a : Nat) :
    Memory.read (c :: m) a = if a = c.1 then some c.2 else Memory.read m a := by
  obtain ⟨k, v⟩ := c
  by_cases h : a = k
  · subst h; simp [Memory.read, List.lookup]
  · simp [Memory.read, List.lookup, h, beq_eq_false_iff_ne.mpr h]

/-- Reading after a write of one byte. -/
theorem Memory.read_write (m : Memory) (a b : Nat) (v : Byte) :
    Memory.read (Memory.write a v m) b = if b = a then some v else Memory.read m b := by
  induction m with
  | nil => simp [Memory.write, Memory.read_cons]
  | cons c m ih =>
    unfold Memory.write
    split
    · simp [Memory.read_cons]
    · split
      · next h => simp only [Memory.read_cons]; subst h; split <;> rfl
      · next h =>
        rw [Memory.read_cons, ih, Memory.read_cons]
        split
        · next hb => subst hb; rw [if_neg (Ne.symm h)]
        · rfl

/-- Reading after a write of consecutive bytes. -/
theorem Memory.read_writeBytes (d : List Byte) (a b : Nat) (m : Memory) :
    Memory.read (Memory.writeBytes a d m) b
      = if a ≤ b ∧ b < a + d.length then d[b - a]? else Memory.read m b := by
  induction d generalizing a m with
  | nil => simp only [Memory.writeBytes, List.length_nil]; rw [if_neg (by omega)]
  | cons v d ih =>
    simp only [Memory.writeBytes, ih, Memory.read_write, List.length_cons]
    by_cases h1 : b = a
    · subst h1
      rw [if_neg (by omega), if_pos rfl, if_pos (by omega)]; simp
    · by_cases h2 : a + 1 ≤ b ∧ b < a + 1 + d.length
      · rw [if_pos h2, if_pos (by omega), show b - a = (b - (a + 1)) + 1 by omega]; simp
      · rw [if_neg h2, if_neg h1, if_neg (by omega)]

/-- Reading after a range of bytes has become unspecified. -/
theorem Memory.read_forget (lo hi b : Nat) (m : Memory) :
    Memory.read (Memory.forget lo hi m) b = if lo ≤ b ∧ b < hi then none else Memory.read m b := by
  induction m with
  | nil => simp [Memory.forget]
  | cons c m ih =>
    unfold Memory.forget at *
    rw [List.filter_cons]
    by_cases h : lo ≤ c.1 ∧ c.1 < hi
    · simp only [h.1, h.2, decide_true, Bool.and_self, Bool.not_true, Bool.false_eq_true, if_false, ih,
        Memory.read_cons]
      split
      · rfl
      · rw [if_neg (by intro hb; subst hb; contradiction)]
    · have : (!(decide (lo ≤ c.1) && decide (c.1 < hi))) = true := by
        simp only [Bool.not_eq_true', Bool.and_eq_false_iff, decide_eq_false_iff_not]
        omega
      rw [if_pos this, Memory.read_cons, ih, Memory.read_cons]
      by_cases hb : b = c.1
      · subst hb; simp [h]
      · simp [hb]

/-- A listed entry is an address that reads as some value. -/
theorem Memory.read_eq_none_iff (m : Memory) (a : Nat) : Memory.read m a = none ↔ ∀ c ∈ m, c.1 ≠ a := by
  induction m with
  | nil => simp
  | cons c m ih =>
    rw [Memory.read_cons]
    by_cases h : a = c.1
    · simp [h]
    · simp [h, ih, Ne.symm h]

theorem Memory.mem_write {c : Host.Cell} {a : Nat} {v : Byte} {m : Memory}
    (h : c ∈ Memory.write a v m) : c = (a, v) ∨ c ∈ m := by
  induction m with
  | nil => simpa [Memory.write] using h
  | cons d m ih =>
    unfold Memory.write at h
    split at h
    · simpa using h
    · split at h <;> simp only [List.mem_cons] at h ⊢
      · tauto
      · rcases h with h | h
        · tauto
        · have := ih h; tauto

/-- A write keeps the canonical form. -/
theorem Memory.write_wf (a : Nat) (v : Byte) {m : Memory} (h : Memory.wf m) : Memory.wf (Memory.write a v m) := by
  induction m with
  | nil => simp [Memory.write]
  | cons c m ih =>
    obtain ⟨hc, hm⟩ := List.pairwise_cons.mp h
    unfold Memory.write
    split
    · next hlt =>
      refine List.pairwise_cons.mpr ⟨fun d hd => ?_, h⟩
      rcases List.mem_cons.mp hd with rfl | hd
      · exact hlt
      · exact Nat.lt_trans hlt (hc d hd)
    · split
      · next heq =>
        refine List.pairwise_cons.mpr ⟨fun d hd => ?_, hm⟩
        have := hc d hd
        simpa [heq] using this
      · refine List.pairwise_cons.mpr ⟨fun d hd => ?_, ih hm⟩
        rcases Memory.mem_write hd with rfl | hd
        · show c.1 < a
          omega
        · exact hc d hd

/-- Storing consecutive bytes keeps the canonical form. -/
theorem Memory.writeBytes_wf (a : Nat) (d : List Byte) {m : Memory} (h : Memory.wf m) :
    Memory.wf (Memory.writeBytes a d m) := by
  induction d generalizing a m with
  | nil => exact h
  | cons v d ih => exact ih (a + 1) (Memory.write_wf a v h)

/-- Making bytes unspecified keeps the canonical form. -/
theorem Memory.forget_wf (lo hi : Nat) {m : Memory} (h : Memory.wf m) : Memory.wf (Memory.forget lo hi m) :=
  List.Pairwise.filter _ h

/-- The bytes a range of memory reads as: it is readable exactly when every byte holds a value. -/
theorem Memory.readBytes_eq_some_iff (m : Memory) (a n : Nat) (d : List Byte) :
    Memory.readBytes m a n = some d ↔ d.length = n ∧ ∀ k < n, Memory.read m (a + k) = d[k]? := by
  induction n generalizing a d with
  | zero =>
    simp only [Memory.readBytes, Option.some.injEq, Nat.not_lt_zero, false_implies, implies_true, and_true]
    constructor
    · rintro rfl; rfl
    · intro h; exact (List.length_eq_zero_iff.mp h).symm
  | succ n ih =>
    simp only [Memory.readBytes]
    constructor
    · intro h
      split at h
      · next v vs hv hvs =>
        obtain rfl := Option.some.inj h
        obtain ⟨hl, hr⟩ := (ih _ _).mp hvs
        refine ⟨by simp [hl], fun k hk => ?_⟩
        cases k with
        | zero => simpa using hv
        | succ k => simpa [Nat.add_assoc, Nat.add_comm 1 k] using hr k (by omega)
      · cases h
    · rintro ⟨hl, hr⟩
      cases d with
      | nil => simp at hl
      | cons v d =>
        have h0 : Memory.read m a = some v := by simpa using hr 0 (by omega)
        have h1 : Memory.readBytes m (a + 1) n = some d :=
          (ih _ _).mpr ⟨by simpa using hl, fun k hk => by
            simpa [Nat.add_assoc, Nat.add_comm 1 k] using hr (k + 1) (by omega)⟩
        rw [h0, h1]

/-- A range is unreadable exactly when some byte of it holds no value. -/
theorem Memory.readBytes_eq_none_iff (m : Memory) (a n : Nat) :
    Memory.readBytes m a n = none ↔ ∃ k < n, Memory.read m (a + k) = none := by
  induction n generalizing a with
  | zero => simp [Memory.readBytes]
  | succ n ih =>
    simp only [Memory.readBytes]
    constructor
    · intro h
      cases hv : Memory.read m a with
      | none => exact ⟨0, by omega, by simpa using hv⟩
      | some v =>
        cases hvs : Memory.readBytes m (a + 1) n with
        | none =>
          obtain ⟨k, hk, hr⟩ := (ih _).mp hvs
          exact ⟨k + 1, by omega, by rw [← hr]; congr 1; omega⟩
        | some vs => rw [hv, hvs] at h; cases h
    · rintro ⟨k, hk, hr⟩
      cases k with
      | zero => rw [show Memory.read m a = none by simpa using hr]
      | succ k =>
        have : Memory.readBytes m (a + 1) n = none :=
          (ih _).mpr ⟨k, by omega, by rw [← hr]; congr 1; omega⟩
        rw [this]
        cases Memory.read m a <;> rfl

/-- What the buffers hold after a command has delivered an output (R37): the output, nothing in the rest of OBUF,
and everything else as before. -/
theorem Memory.read_deliver (d : List Byte) (m : Memory) (a : Nat) :
    Memory.read (Memory.writeBytes obufBase d (Memory.forget obufBase obufEnd m)) a
      = if obufBase ≤ a ∧ a < obufBase + d.length then d[a - obufBase]?
        else if obufBase ≤ a ∧ a < obufEnd then none else Memory.read m a := by
  rw [Memory.read_writeBytes, Memory.read_forget]

end Sys2Proof.Machine
end

