-- ==== Sys2Proof/Laws/State.lean ====
section
/-! SUPPORT. One lemma for each field under each named update of State: no later proof unfolds a record update. -/

namespace Sys2Proof.Machine

/-! ### `State.complete`: the completion fields (R205). -/

@[simp] theorem State.complete_cfg (c : ErrCode) (s : State) : (s.complete c).cfg = s.cfg := rfl
@[simp] theorem State.complete_cmdl (c : ErrCode) (s : State) : (s.complete c).cmdl = s.cmdl := rfl
@[simp] theorem State.complete_busy (c : ErrCode) (s : State) : (s.complete c).busy = false := rfl
@[simp] theorem State.complete_done (c : ErrCode) (s : State) : (s.complete c).done = true := rfl
@[simp] theorem State.complete_err (c : ErrCode) (s : State) : (s.complete c).err = decide (c ≠ .noError) := rfl
@[simp] theorem State.complete_ovr (c : ErrCode) (s : State) : (s.complete c).ovr = s.ovr := rfl
@[simp] theorem State.complete_kv (c : ErrCode) (s : State) : (s.complete c).kv = s.kv := rfl
@[simp] theorem State.complete_errcode (c : ErrCode) (s : State) : (s.complete c).errcode = c := rfl
@[simp] theorem State.complete_ie (c : ErrCode) (s : State) : (s.complete c).ie = s.ie := rfl
@[simp] theorem State.complete_olen (c : ErrCode) (s : State) : (s.complete c).olen = s.olen := rfl
@[simp] theorem State.complete_keylen (c : ErrCode) (s : State) : (s.complete c).keylen = s.keylen := rfl
@[simp] theorem State.complete_key (c : ErrCode) (s : State) : (s.complete c).key = s.key := rfl
@[simp] theorem State.complete_stateReg (c : ErrCode) (s : State) : (s.complete c).stateReg = s.stateReg := rfl
@[simp] theorem State.complete_rk (c : ErrCode) (s : State) : (s.complete c).rk = s.rk := rfl
@[simp] theorem State.complete_mem (c : ErrCode) (s : State) : (s.complete c).mem = s.mem := rfl
@[simp] theorem State.complete_rst (c : ErrCode) (s : State) : (s.complete c).rst = s.rst := rfl
@[simp] theorem State.complete_written (c : ErrCode) (s : State) : (s.complete c).written = s.written := rfl
@[simp] theorem State.complete_pending (c : ErrCode) (s : State) : (s.complete c).pending = s.pending := rfl
@[simp] theorem State.complete_reply (c : ErrCode) (s : State) : (s.complete c).reply = s.reply := rfl
@[simp] theorem State.complete_draws (c : ErrCode) (s : State) : (s.complete c).draws = s.draws := rfl

/-! ### `State.fail`: the error effect without output (R226). -/

@[simp] theorem State.fail_cfg (c : ErrCode) (s : State) : (s.fail c).cfg = s.cfg := rfl
@[simp] theorem State.fail_cmdl (c : ErrCode) (s : State) : (s.fail c).cmdl = s.cmdl := rfl
@[simp] theorem State.fail_busy (c : ErrCode) (s : State) : (s.fail c).busy = false := rfl
@[simp] theorem State.fail_done (c : ErrCode) (s : State) : (s.fail c).done = true := rfl
@[simp] theorem State.fail_err (c : ErrCode) (s : State) : (s.fail c).err = decide (c ≠ .noError) := rfl
@[simp] theorem State.fail_ovr (c : ErrCode) (s : State) : (s.fail c).ovr = s.ovr := rfl
@[simp] theorem State.fail_kv (c : ErrCode) (s : State) : (s.fail c).kv = s.kv := rfl
@[simp] theorem State.fail_errcode (c : ErrCode) (s : State) : (s.fail c).errcode = c := rfl
@[simp] theorem State.fail_ie (c : ErrCode) (s : State) : (s.fail c).ie = s.ie := rfl
@[simp] theorem State.fail_olen (c : ErrCode) (s : State) : (s.fail c).olen = s.olen := rfl
@[simp] theorem State.fail_keylen (c : ErrCode) (s : State) : (s.fail c).keylen = s.keylen := rfl
@[simp] theorem State.fail_key (c : ErrCode) (s : State) : (s.fail c).key = s.key := rfl
@[simp] theorem State.fail_stateReg (c : ErrCode) (s : State) : (s.fail c).stateReg = s.stateReg := rfl
@[simp] theorem State.fail_rk (c : ErrCode) (s : State) : (s.fail c).rk = s.rk := rfl
@[simp] theorem State.fail_mem (c : ErrCode) (s : State) : (s.fail c).mem = s.mem := rfl
@[simp] theorem State.fail_rst (c : ErrCode) (s : State) : (s.fail c).rst = s.rst := rfl
@[simp] theorem State.fail_written (c : ErrCode) (s : State) : (s.fail c).written = s.written := rfl
@[simp] theorem State.fail_pending (c : ErrCode) (s : State) : (s.fail c).pending = s.pending := rfl
@[simp] theorem State.fail_reply (c : ErrCode) (s : State) : (s.fail c).reply = s.reply := rfl
@[simp] theorem State.fail_draws (c : ErrCode) (s : State) : (s.fail c).draws = s.draws := rfl

/-! ### `State.failOutput`: the error effect of an OLEN-writing command (R226). -/

@[simp] theorem State.failOutput_cfg (c : ErrCode) (s : State) : (s.failOutput c).cfg = s.cfg := rfl
@[simp] theorem State.failOutput_cmdl (c : ErrCode) (s : State) : (s.failOutput c).cmdl = s.cmdl := rfl
@[simp] theorem State.failOutput_busy (c : ErrCode) (s : State) : (s.failOutput c).busy = false := rfl
@[simp] theorem State.failOutput_done (c : ErrCode) (s : State) : (s.failOutput c).done = true := rfl
@[simp] theorem State.failOutput_err (c : ErrCode) (s : State) : (s.failOutput c).err = decide (c ≠ .noError) := rfl
@[simp] theorem State.failOutput_ovr (c : ErrCode) (s : State) : (s.failOutput c).ovr = s.ovr := rfl
@[simp] theorem State.failOutput_kv (c : ErrCode) (s : State) : (s.failOutput c).kv = s.kv := rfl
@[simp] theorem State.failOutput_errcode (c : ErrCode) (s : State) : (s.failOutput c).errcode = c := rfl
@[simp] theorem State.failOutput_ie (c : ErrCode) (s : State) : (s.failOutput c).ie = s.ie := rfl
@[simp] theorem State.failOutput_olen (c : ErrCode) (s : State) : (s.failOutput c).olen = 0#16 := rfl
@[simp] theorem State.failOutput_keylen (c : ErrCode) (s : State) : (s.failOutput c).keylen = s.keylen := rfl
@[simp] theorem State.failOutput_key (c : ErrCode) (s : State) : (s.failOutput c).key = s.key := rfl
@[simp] theorem State.failOutput_stateReg (c : ErrCode) (s : State) : (s.failOutput c).stateReg = s.stateReg := rfl
@[simp] theorem State.failOutput_rk (c : ErrCode) (s : State) : (s.failOutput c).rk = s.rk := rfl
@[simp] theorem State.failOutput_mem (c : ErrCode) (s : State) : (s.failOutput c).mem = Memory.forget obufBase obufEnd s.mem := rfl
@[simp] theorem State.failOutput_rst (c : ErrCode) (s : State) : (s.failOutput c).rst = s.rst := rfl
@[simp] theorem State.failOutput_written (c : ErrCode) (s : State) : (s.failOutput c).written = s.written := rfl
@[simp] theorem State.failOutput_pending (c : ErrCode) (s : State) : (s.failOutput c).pending = s.pending := rfl
@[simp] theorem State.failOutput_reply (c : ErrCode) (s : State) : (s.failOutput c).reply = s.reply := rfl
@[simp] theorem State.failOutput_draws (c : ErrCode) (s : State) : (s.failOutput c).draws = s.draws := rfl

/-! ### `State.accept`: acceptance (R200). -/

@[simp] theorem State.accept_cfg (v : Word) (s : State) : (s.accept v).cfg = s.cfg := rfl
@[simp] theorem State.accept_cmdl (v : Word) (s : State) : (s.accept v).cmdl = v := rfl
@[simp] theorem State.accept_busy (v : Word) (s : State) : (s.accept v).busy = true := rfl
@[simp] theorem State.accept_done (v : Word) (s : State) : (s.accept v).done = false := rfl
@[simp] theorem State.accept_err (v : Word) (s : State) : (s.accept v).err = false := rfl
@[simp] theorem State.accept_ovr (v : Word) (s : State) : (s.accept v).ovr = s.ovr := rfl
@[simp] theorem State.accept_kv (v : Word) (s : State) : (s.accept v).kv = s.kv := rfl
@[simp] theorem State.accept_errcode (v : Word) (s : State) : (s.accept v).errcode = .noError := rfl
@[simp] theorem State.accept_ie (v : Word) (s : State) : (s.accept v).ie = s.ie := rfl
@[simp] theorem State.accept_olen (v : Word) (s : State) : (s.accept v).olen = s.olen := rfl
@[simp] theorem State.accept_keylen (v : Word) (s : State) : (s.accept v).keylen = s.keylen := rfl
@[simp] theorem State.accept_key (v : Word) (s : State) : (s.accept v).key = s.key := rfl
@[simp] theorem State.accept_stateReg (v : Word) (s : State) : (s.accept v).stateReg = s.stateReg := rfl
@[simp] theorem State.accept_rk (v : Word) (s : State) : (s.accept v).rk = s.rk := rfl
@[simp] theorem State.accept_mem (v : Word) (s : State) : (s.accept v).mem = s.mem := rfl
@[simp] theorem State.accept_rst (v : Word) (s : State) : (s.accept v).rst = s.rst := rfl
@[simp] theorem State.accept_written (v : Word) (s : State) : (s.accept v).written = s.written := rfl
@[simp] theorem State.accept_pending (v : Word) (s : State) : (s.accept v).pending = s.pending := rfl
@[simp] theorem State.accept_reply (v : Word) (s : State) : (s.accept v).reply = s.reply := rfl
@[simp] theorem State.accept_draws (v : Word) (s : State) : (s.accept v).draws = s.draws := rfl

/-! ### `State.expandKey`: the key-schedule step (R30). -/

@[simp] theorem State.expandKey_cfg (s : State) : (s.expandKey).cfg = s.cfg := rfl
@[simp] theorem State.expandKey_cmdl (s : State) : (s.expandKey).cmdl = s.cmdl := rfl
@[simp] theorem State.expandKey_busy (s : State) : (s.expandKey).busy = s.busy := rfl
@[simp] theorem State.expandKey_done (s : State) : (s.expandKey).done = s.done := rfl
@[simp] theorem State.expandKey_err (s : State) : (s.expandKey).err = s.err := rfl
@[simp] theorem State.expandKey_ovr (s : State) : (s.expandKey).ovr = s.ovr := rfl
@[simp] theorem State.expandKey_kv (s : State) : (s.expandKey).kv = true := rfl
@[simp] theorem State.expandKey_errcode (s : State) : (s.expandKey).errcode = s.errcode := rfl
@[simp] theorem State.expandKey_ie (s : State) : (s.expandKey).ie = s.ie := rfl
@[simp] theorem State.expandKey_olen (s : State) : (s.expandKey).olen = s.olen := rfl
@[simp] theorem State.expandKey_keylen (s : State) : (s.expandKey).keylen = s.keylen := rfl
@[simp] theorem State.expandKey_key (s : State) : (s.expandKey).key = s.key := rfl
@[simp] theorem State.expandKey_stateReg (s : State) : (s.expandKey).stateReg = s.stateReg := rfl
@[simp] theorem State.expandKey_rk (s : State) : (s.expandKey).rk = expand s.cfg.rc s.key := rfl
@[simp] theorem State.expandKey_mem (s : State) : (s.expandKey).mem = s.mem := rfl
@[simp] theorem State.expandKey_rst (s : State) : (s.expandKey).rst = s.rst := rfl
@[simp] theorem State.expandKey_written (s : State) : (s.expandKey).written = s.written := rfl
@[simp] theorem State.expandKey_pending (s : State) : (s.expandKey).pending = s.pending := rfl
@[simp] theorem State.expandKey_reply (s : State) : (s.expandKey).reply = s.reply := rfl
@[simp] theorem State.expandKey_draws (s : State) : (s.expandKey).draws = s.draws := rfl

/-! ### `State.setBlock`: STATE <- b (R35). -/

@[simp] theorem State.setBlock_cfg (b : Block) (s : State) : (s.setBlock b).cfg = s.cfg := rfl
@[simp] theorem State.setBlock_cmdl (b : Block) (s : State) : (s.setBlock b).cmdl = s.cmdl := rfl
@[simp] theorem State.setBlock_busy (b : Block) (s : State) : (s.setBlock b).busy = s.busy := rfl
@[simp] theorem State.setBlock_done (b : Block) (s : State) : (s.setBlock b).done = s.done := rfl
@[simp] theorem State.setBlock_err (b : Block) (s : State) : (s.setBlock b).err = s.err := rfl
@[simp] theorem State.setBlock_ovr (b : Block) (s : State) : (s.setBlock b).ovr = s.ovr := rfl
@[simp] theorem State.setBlock_kv (b : Block) (s : State) : (s.setBlock b).kv = s.kv := rfl
@[simp] theorem State.setBlock_errcode (b : Block) (s : State) : (s.setBlock b).errcode = s.errcode := rfl
@[simp] theorem State.setBlock_ie (b : Block) (s : State) : (s.setBlock b).ie = s.ie := rfl
@[simp] theorem State.setBlock_olen (b : Block) (s : State) : (s.setBlock b).olen = s.olen := rfl
@[simp] theorem State.setBlock_keylen (b : Block) (s : State) : (s.setBlock b).keylen = s.keylen := rfl
@[simp] theorem State.setBlock_key (b : Block) (s : State) : (s.setBlock b).key = s.key := rfl
@[simp] theorem State.setBlock_stateReg (b : Block) (s : State) : (s.setBlock b).stateReg = b := rfl
@[simp] theorem State.setBlock_rk (b : Block) (s : State) : (s.setBlock b).rk = s.rk := rfl
@[simp] theorem State.setBlock_mem (b : Block) (s : State) : (s.setBlock b).mem = s.mem := rfl
@[simp] theorem State.setBlock_rst (b : Block) (s : State) : (s.setBlock b).rst = s.rst := rfl
@[simp] theorem State.setBlock_written (b : Block) (s : State) : (s.setBlock b).written = { s.written with state0 := true, state1 := true, state2 := true, state3 := true } := rfl
@[simp] theorem State.setBlock_pending (b : Block) (s : State) : (s.setBlock b).pending = s.pending := rfl
@[simp] theorem State.setBlock_reply (b : Block) (s : State) : (s.setBlock b).reply = s.reply := rfl
@[simp] theorem State.setBlock_draws (b : Block) (s : State) : (s.setBlock b).draws = s.draws := rfl

/-! ### `State.deliver`: delivering an output (R37). -/

@[simp] theorem State.deliver_cfg (d : List Byte) (s : State) : (s.deliver d).cfg = s.cfg := rfl
@[simp] theorem State.deliver_cmdl (d : List Byte) (s : State) : (s.deliver d).cmdl = s.cmdl := rfl
@[simp] theorem State.deliver_busy (d : List Byte) (s : State) : (s.deliver d).busy = s.busy := rfl
@[simp] theorem State.deliver_done (d : List Byte) (s : State) : (s.deliver d).done = s.done := rfl
@[simp] theorem State.deliver_err (d : List Byte) (s : State) : (s.deliver d).err = s.err := rfl
@[simp] theorem State.deliver_ovr (d : List Byte) (s : State) : (s.deliver d).ovr = s.ovr := rfl
@[simp] theorem State.deliver_kv (d : List Byte) (s : State) : (s.deliver d).kv = s.kv := rfl
@[simp] theorem State.deliver_errcode (d : List Byte) (s : State) : (s.deliver d).errcode = s.errcode := rfl
@[simp] theorem State.deliver_ie (d : List Byte) (s : State) : (s.deliver d).ie = s.ie := rfl
@[simp] theorem State.deliver_olen (d : List Byte) (s : State) : (s.deliver d).olen = BitVec.ofNat 16 d.length := rfl
@[simp] theorem State.deliver_keylen (d : List Byte) (s : State) : (s.deliver d).keylen = s.keylen := rfl
@[simp] theorem State.deliver_key (d : List Byte) (s : State) : (s.deliver d).key = s.key := rfl
@[simp] theorem State.deliver_stateReg (d : List Byte) (s : State) : (s.deliver d).stateReg = s.stateReg := rfl
@[simp] theorem State.deliver_rk (d : List Byte) (s : State) : (s.deliver d).rk = s.rk := rfl
@[simp] theorem State.deliver_mem (d : List Byte) (s : State) : (s.deliver d).mem = Memory.writeBytes obufBase d (Memory.forget obufBase obufEnd s.mem) := rfl
@[simp] theorem State.deliver_rst (d : List Byte) (s : State) : (s.deliver d).rst = s.rst := rfl
@[simp] theorem State.deliver_written (d : List Byte) (s : State) : (s.deliver d).written = s.written := rfl
@[simp] theorem State.deliver_pending (d : List Byte) (s : State) : (s.deliver d).pending = s.pending := rfl
@[simp] theorem State.deliver_reply (d : List Byte) (s : State) : (s.deliver d).reply = s.reply := rfl
@[simp] theorem State.deliver_draws (d : List Byte) (s : State) : (s.deliver d).draws = s.draws := rfl

/-! ### `State.afterReset`: asserting reset (R260). -/

@[simp] theorem State.afterReset_cfg (s : State) : (s.afterReset).cfg = s.cfg := rfl
@[simp] theorem State.afterReset_cmdl (s : State) : (s.afterReset).cmdl = 0#32 := rfl
@[simp] theorem State.afterReset_busy (s : State) : (s.afterReset).busy = false := rfl
@[simp] theorem State.afterReset_done (s : State) : (s.afterReset).done = false := rfl
@[simp] theorem State.afterReset_err (s : State) : (s.afterReset).err = false := rfl
@[simp] theorem State.afterReset_ovr (s : State) : (s.afterReset).ovr = false := rfl
@[simp] theorem State.afterReset_kv (s : State) : (s.afterReset).kv = false := rfl
@[simp] theorem State.afterReset_errcode (s : State) : (s.afterReset).errcode = .noError := rfl
@[simp] theorem State.afterReset_ie (s : State) : (s.afterReset).ie = false := rfl
@[simp] theorem State.afterReset_olen (s : State) : (s.afterReset).olen = 0#16 := rfl
@[simp] theorem State.afterReset_keylen (s : State) : (s.afterReset).keylen = 0#8 := rfl
@[simp] theorem State.afterReset_key (s : State) : (s.afterReset).key = 0#64 := rfl
@[simp] theorem State.afterReset_stateReg (s : State) : (s.afterReset).stateReg = 0#128 := rfl
@[simp] theorem State.afterReset_rk (s : State) : (s.afterReset).rk = #v[0#128, 0#128, 0#128, 0#128, 0#128] := rfl
@[simp] theorem State.afterReset_mem (s : State) : (s.afterReset).mem = [] := rfl
@[simp] theorem State.afterReset_rst (s : State) : (s.afterReset).rst = true := rfl
@[simp] theorem State.afterReset_written (s : State) : (s.afterReset).written = ⟨false, false, false, false, false, false⟩ := rfl
@[simp] theorem State.afterReset_pending (s : State) : (s.afterReset).pending = s.pending := rfl
@[simp] theorem State.afterReset_reply (s : State) : (s.afterReset).reply = s.reply := rfl
@[simp] theorem State.afterReset_draws (s : State) : (s.afterReset).draws = s.draws := rfl

/-! ### `State.clearStatus`: a write to STATUS (R55). -/

@[simp] theorem State.clearStatus_cfg (v : Word) (s : State) : (s.clearStatus v).cfg = s.cfg := rfl
@[simp] theorem State.clearStatus_cmdl (v : Word) (s : State) : (s.clearStatus v).cmdl = s.cmdl := rfl
@[simp] theorem State.clearStatus_busy (v : Word) (s : State) : (s.clearStatus v).busy = s.busy := rfl
@[simp] theorem State.clearStatus_done (v : Word) (s : State) : (s.clearStatus v).done = (s.done && !v.getLsbD 1) := rfl
@[simp] theorem State.clearStatus_err (v : Word) (s : State) : (s.clearStatus v).err = s.err := rfl
@[simp] theorem State.clearStatus_ovr (v : Word) (s : State) : (s.clearStatus v).ovr = (s.ovr && !v.getLsbD 3) := rfl
@[simp] theorem State.clearStatus_kv (v : Word) (s : State) : (s.clearStatus v).kv = s.kv := rfl
@[simp] theorem State.clearStatus_errcode (v : Word) (s : State) : (s.clearStatus v).errcode = s.errcode := rfl
@[simp] theorem State.clearStatus_ie (v : Word) (s : State) : (s.clearStatus v).ie = s.ie := rfl
@[simp] theorem State.clearStatus_olen (v : Word) (s : State) : (s.clearStatus v).olen = s.olen := rfl
@[simp] theorem State.clearStatus_keylen (v : Word) (s : State) : (s.clearStatus v).keylen = s.keylen := rfl
@[simp] theorem State.clearStatus_key (v : Word) (s : State) : (s.clearStatus v).key = s.key := rfl
@[simp] theorem State.clearStatus_stateReg (v : Word) (s : State) : (s.clearStatus v).stateReg = s.stateReg := rfl
@[simp] theorem State.clearStatus_rk (v : Word) (s : State) : (s.clearStatus v).rk = s.rk := rfl
@[simp] theorem State.clearStatus_mem (v : Word) (s : State) : (s.clearStatus v).mem = s.mem := rfl
@[simp] theorem State.clearStatus_rst (v : Word) (s : State) : (s.clearStatus v).rst = s.rst := rfl
@[simp] theorem State.clearStatus_written (v : Word) (s : State) : (s.clearStatus v).written = s.written := rfl
@[simp] theorem State.clearStatus_pending (v : Word) (s : State) : (s.clearStatus v).pending = s.pending := rfl
@[simp] theorem State.clearStatus_reply (v : Word) (s : State) : (s.clearStatus v).reply = s.reply := rfl
@[simp] theorem State.clearStatus_draws (v : Word) (s : State) : (s.clearStatus v).draws = s.draws := rfl

end Sys2Proof.Machine
end

