-- ==== Sys2Proof/Laws/Ops.lean ====
section
/-! SUPPORT. Everything the shared operations of the commands can do, once each. -/

namespace Sys2Proof.Machine

/-- A command that reads IBUF[0..n) goes on exactly when every byte of it holds a value (R43). -/
theorem State.withInput_eq_next (s t : State) (n : Nat) (go : List Byte → Host.Outcome State Fault Refusal) :
    s.withInput n go = .next t ↔ ∃ d, s.input n = some d ∧ go d = .next t := by
  unfold State.withInput
  cases s.input n <;> simp

/-- With IBUF[0..n) readable a command goes on with its bytes. -/
theorem State.withInput_of_input {s : State} {n : Nat} {d : List Byte} (h : s.input n = some d)
    (go : List Byte → Host.Outcome State Fault Refusal) : s.withInput n go = go d := by
  unfold State.withInput; rw [h]

/-- With some byte of IBUF[0..n) unwritten a command faults (R43). -/
theorem State.withInput_of_unwritten {s : State} {n : Nat} (h : s.input n = none)
    (go : List Byte → Host.Outcome State Fault Refusal) : s.withInput n go = .fault .unwrittenInput := by
  unfold State.withInput; rw [h]

theorem State.input_eq_some_iff (s : State) (n : Nat) (d : List Byte) :
    s.input n = some d ↔ d.length = n ∧ ∀ k < n, Memory.read s.mem (ibufBase + k) = d[k]? :=
  Memory.readBytes_eq_some_iff _ _ _ _

theorem State.input_eq_none_iff (s : State) (n : Nat) :
    s.input n = none ↔ ∃ k < n, Memory.read s.mem (ibufBase + k) = none :=
  Memory.readBytes_eq_none_iff _ _ _

/-- A command on a round key: illegal index, no round keys, or the new STATE (R155-R157). -/
theorem State.onRoundKey_cases (s : State) (top ridx : BitVec 3) (f : Block → Block → Block) :
    (top < ridx ∧ s.onRoundKey top ridx f = s.fail .illegalCommand) ∨
    (ridx ≤ top ∧ s.kv = false ∧ s.onRoundKey top ridx f = s.fail .noRoundKeys) ∨
    (ridx ≤ top ∧ s.kv = true ∧
      s.onRoundKey top ridx f = (s.setBlock (f s.stateReg (roundKey s.rk ridx.toNat))).complete .noError) := by
  unfold State.onRoundKey
  by_cases h : top < ridx
  · exact .inl ⟨h, by rw [if_pos h]⟩
  · have hle : ridx ≤ top := BitVec.not_lt.mp h
    cases hk : s.kv
    · exact .inr (.inl ⟨hle, rfl, by rw [if_neg h, if_pos rfl]⟩)
    · exact .inr (.inr ⟨hle, rfl, by rw [if_neg h, if_neg (by decide)]⟩)

/-- A block command's next states (R158, R159): the two length errors, or the block transformed. -/
theorem State.blockCommand_next {s t : State} {len : BitVec 16} {f : Block → RoundKeys → Block}
    (h : s.blockCommand len f = .next t) :
    (len.toNat ≠ 16 ∧ t = s.failOutput .invalidBlockLength) ∨
    (len.toNat = 16 ∧ s.keylen ≠ 8#8 ∧ t = s.failOutput .invalidKeyLength) ∨
    (len.toNat = 16 ∧ s.keylen = 8#8 ∧ ∃ d, s.input 16 = some d ∧
      t = ((s.expandKey.deliver (blockBytes (f (blockOfBytes d) s.expandKey.rk))).setBlock
            (f (blockOfBytes d) s.expandKey.rk)).complete .noError) := by
  unfold State.blockCommand at h
  split at h
  · next h1 => exact .inl ⟨h1, (Host.Outcome.next.inj h).symm⟩
  · next h1 =>
    have h1 : len.toNat = 16 := Decidable.not_not.mp h1
    split at h
    · next h2 => exact .inr (.inl ⟨h1, h2, (Host.Outcome.next.inj h).symm⟩)
    · next h2 =>
      obtain ⟨d, hd, ht⟩ := (State.withInput_eq_next ..).mp h
      exact .inr (.inr ⟨h1, Decidable.not_not.mp h2, d, hd, (Host.Outcome.next.inj ht).symm⟩)

/-- The lengths of unpadded and padded data. -/
theorem unpad_ok_length {p d : List Byte} (h : unpad p = .ok d) : d.length ≤ p.length := by
  unfold unpad at h
  simp only at h
  split at h
  · cases h
  · split at h
    · cases h
    · split at h
      · cases h
      · obtain rfl := Except.ok.inj h
        simp

/-- Padding is the only error of `unpad` (R172). -/
theorem unpad_error {p : List Byte} {e : ErrCode} (h : unpad p = .error e) : e = .invalidPadding := by
  unfold unpad at h
  simp only at h
  split at h
  · exact (Except.error.inj h).symm
  · split at h
    · exact (Except.error.inj h).symm
    · split at h
      · exact (Except.error.inj h).symm
      · cases h

theorem length_flatMap_blocks (f : Block → Block) (l : List Block) :
    (l.flatMap fun b => blockBytes (f b)).length = 16 * l.length := by
  induction l with
  | nil => rfl
  | cons b l ih => rw [List.flatMap_cons, List.length_append, ih, blockBytes_length, List.length_cons]; omega

/-- Block by block, whole blocks in, whole blocks out. -/
theorem mapBlocks_length (f : Block → Block) (d : List Byte) :
    (mapBlocks f d).length = 16 * (d.length / 16) := by
  rw [mapBlocks, length_flatMap_blocks, splitBlocks_length]

/-- The length of an encrypted message (R181). -/
theorem encryptMessageRK_length (p : List Byte) (rk : RoundKeys) :
    (encryptMessageRK p rk).length = p.length + padCount p.length := by
  rw [encryptMessageRK, mapBlocks_length, pad_length]
  have := add_padCount_mod p.length
  omega

theorem decryptMessageRK_ok_length {c d : List Byte} {rk : RoundKeys} (h : decryptMessageRK c rk = .ok d) :
    d.length ≤ c.length := by
  have h1 := unpad_ok_length h
  rw [mapBlocks_length] at h1
  omega

/-- The next states of every command: how its last state was made. Each form names the operations of
Machine/Ops.lean whose effect on every field Laws/State.lean gives. -/
inductive Completed (s : State) : State → Prop
  /-- NOP (R207). -/
  | nothing : Completed s (s.complete .noError)
  /-- An error of a command that is not OLEN-writing (R226). -/
  | failed (c : ErrCode) (hc : c ≠ .noError) : Completed s (s.fail c)
  /-- An error of an OLEN-writing command (R226). -/
  | failedOutput (c : ErrCode) (hc : c ≠ .noError) : Completed s (s.failOutput c)
  /-- DEC_MSG's INVALID_PADDING, after the key-schedule step (R204). -/
  | failedPadding (hk : s.keylen = 8#8) : Completed s (s.expandKey.failOutput .invalidPadding)
  /-- EXPAND (R118). -/
  | expanded (hk : s.keylen = 8#8) : Completed s (s.expandKey.complete .noError)
  /-- A command on STATE (R114-R117, R155-R157). -/
  | layered (b : Block) : Completed s ((s.setBlock b).complete .noError)
  /-- PAD, UNPAD (R192, R193). -/
  | delivered (d : List Byte) (hd : d.length ≤ s.cfg.bufSize) : Completed s ((s.deliver d).complete .noError)
  /-- ENC_MSG, DEC_MSG (R190, R191). -/
  | ciphered (d : List Byte) (hd : d.length ≤ s.cfg.bufSize) (hk : s.keylen = 8#8) :
      Completed s ((s.expandKey.deliver d).complete .noError)
  /-- ENC_BLK, DEC_BLK (R158, R159). -/
  | blocked (b : Block) (hk : s.keylen = 8#8) :
      Completed s (((s.expandKey.deliver (blockBytes b)).setBlock b).complete .noError)

theorem Completed.onRoundKey (s : State) (top ridx : BitVec 3) (f : Block → Block → Block) :
    Completed s (s.onRoundKey top ridx f) := by
  rcases State.onRoundKey_cases s top ridx f with ⟨-, h⟩ | ⟨-, -, h⟩ | ⟨-, -, h⟩ <;> rw [h]
  · exact .failed _ (by decide)
  · exact .failed _ (by decide)
  · exact .layered _

theorem Completed.blockCommand {s t : State} {len : BitVec 16} {f : Block → RoundKeys → Block}
    (h : s.blockCommand len f = .next t) : Completed s t := by
  rcases State.blockCommand_next h with ⟨-, rfl⟩ | ⟨-, -, rfl⟩ | ⟨-, hk, d, -, rfl⟩
  · exact .failedOutput _ (by decide)
  · exact .failedOutput _ (by decide)
  · exact .blocked _ hk

theorem execExpand_next {s t : State} (h : execExpand s = .next t) :
    (s.keylen ≠ 8#8 ∧ t = s.fail .invalidKeyLength) ∨
    (s.keylen = 8#8 ∧ t = s.expandKey.complete .noError) := by
  unfold execExpand at h
  split at h
  · next h1 => exact .inl ⟨h1, (Host.Outcome.next.inj h).symm⟩
  · next h1 => exact .inr ⟨Decidable.not_not.mp h1, (Host.Outcome.next.inj h).symm⟩

/-- ENC_MSG's next states (R190). -/
theorem execEncMsg_next {s t : State} {len : BitVec 16} (h : execEncMsg len s = .next t) :
    (s.cfg.bufSize < len.toNat + padCount len.toNat ∧ t = s.failOutput .capacity) ∨
    (len.toNat + padCount len.toNat ≤ s.cfg.bufSize ∧ s.keylen ≠ 8#8 ∧ t = s.failOutput .invalidKeyLength) ∨
    (len.toNat + padCount len.toNat ≤ s.cfg.bufSize ∧ s.keylen = 8#8 ∧ ∃ d, s.input len.toNat = some d ∧
      t = (s.expandKey.deliver (encryptMessageRK d s.expandKey.rk)).complete .noError) := by
  unfold execEncMsg at h
  split at h
  · next h1 => exact .inl ⟨h1, (Host.Outcome.next.inj h).symm⟩
  · next h1 =>
    split at h
    · next h2 => exact .inr (.inl ⟨by omega, h2, (Host.Outcome.next.inj h).symm⟩)
    · next h2 =>
      obtain ⟨d, hd, ht⟩ := (State.withInput_eq_next ..).mp h
      exact .inr (.inr ⟨by omega, Decidable.not_not.mp h2, d, hd, (Host.Outcome.next.inj ht).symm⟩)

/-- DEC_MSG's next states (R191). -/
theorem execDecMsg_next {s t : State} {len : BitVec 16} (h : execDecMsg len s = .next t) :
    (len.toNat % 16 ≠ 0 ∧ t = s.failOutput .invalidCiphertextLength) ∨
    (len.toNat % 16 = 0 ∧ s.cfg.bufSize < len.toNat ∧ t = s.failOutput .capacity) ∨
    (len.toNat % 16 = 0 ∧ len.toNat ≤ s.cfg.bufSize ∧ s.keylen ≠ 8#8 ∧ t = s.failOutput .invalidKeyLength) ∨
    (len.toNat % 16 = 0 ∧ len.toNat ≤ s.cfg.bufSize ∧ s.keylen = 8#8 ∧ ∃ d, s.input len.toNat = some d ∧
      ((decryptMessageRK d s.expandKey.rk = .error .invalidPadding ∧
          t = s.expandKey.failOutput .invalidPadding) ∨
        ∃ r, decryptMessageRK d s.expandKey.rk = .ok r ∧ t = (s.expandKey.deliver r).complete .noError)) := by
  unfold execDecMsg at h
  split at h
  · next h1 => exact .inl ⟨h1, (Host.Outcome.next.inj h).symm⟩
  · next h1 =>
    have h1 := Decidable.not_not.mp h1
    split at h
    · next h2 => exact .inr (.inl ⟨h1, h2, (Host.Outcome.next.inj h).symm⟩)
    · next h2 =>
      split at h
      · next h3 => exact .inr (.inr (.inl ⟨h1, by omega, h3, (Host.Outcome.next.inj h).symm⟩))
      · next h3 =>
        obtain ⟨d, hd, ht⟩ := (State.withInput_eq_next ..).mp h
        refine .inr (.inr (.inr ⟨h1, by omega, Decidable.not_not.mp h3, d, hd, ?_⟩))
        split at ht
        · next e he =>
          obtain rfl := unpad_error he
          exact .inl ⟨he, (Host.Outcome.next.inj ht).symm⟩
        · next r hr => exact .inr ⟨r, hr, (Host.Outcome.next.inj ht).symm⟩

/-- PAD's next states (R192). -/
theorem execPad_next {s t : State} {len : BitVec 16} (h : execPad len s = .next t) :
    (s.cfg.bufSize < len.toNat + padCount len.toNat ∧ t = s.failOutput .capacity) ∨
    (len.toNat + padCount len.toNat ≤ s.cfg.bufSize ∧ ∃ d, s.input len.toNat = some d ∧
      t = (s.deliver (pad d)).complete .noError) := by
  unfold execPad at h
  split at h
  · next h1 => exact .inl ⟨h1, (Host.Outcome.next.inj h).symm⟩
  · next h1 =>
    obtain ⟨d, hd, ht⟩ := (State.withInput_eq_next ..).mp h
    exact .inr ⟨by omega, d, hd, (Host.Outcome.next.inj ht).symm⟩

/-- UNPAD's next states (R193). -/
theorem execUnpad_next {s t : State} {len : BitVec 16} (h : execUnpad len s = .next t) :
    ((len.toNat = 0 ∨ len.toNat % 16 ≠ 0) ∧ t = s.failOutput .invalidPadding) ∨
    (len.toNat ≠ 0 ∧ len.toNat % 16 = 0 ∧ s.cfg.bufSize < len.toNat ∧ t = s.failOutput .capacity) ∨
    (len.toNat ≠ 0 ∧ len.toNat % 16 = 0 ∧ len.toNat ≤ s.cfg.bufSize ∧ ∃ d, s.input len.toNat = some d ∧
      ((unpad d = .error .invalidPadding ∧ t = s.failOutput .invalidPadding) ∨
        ∃ r, unpad d = .ok r ∧ t = (s.deliver r).complete .noError)) := by
  unfold execUnpad at h
  split at h
  · next h1 => exact .inl ⟨h1, (Host.Outcome.next.inj h).symm⟩
  · next h1 =>
    split at h
    · next h2 => exact .inr (.inl ⟨by omega, by omega, h2, (Host.Outcome.next.inj h).symm⟩)
    · next h2 =>
      obtain ⟨d, hd, ht⟩ := (State.withInput_eq_next ..).mp h
      refine .inr (.inr ⟨by omega, by omega, by omega, d, hd, ?_⟩)
      split at ht
      · next e he =>
        obtain rfl := unpad_error he
        exact .inl ⟨he, (Host.Outcome.next.inj ht).symm⟩
      · next r hr => exact .inr ⟨r, hr, (Host.Outcome.next.inj ht).symm⟩

/-- The input a command has read has the length it asked for. -/
theorem State.input_length {s : State} {n : Nat} {d : List Byte} (h : s.input n = some d) : d.length = n :=
  ((State.input_eq_some_iff ..).mp h).1

/-- Every next state of every command has one of the forms of `Completed`. -/
theorem exec_completed {i : Instr} {s t : State} (h : exec i s = .next t) : Completed s t := by
  cases i with
  | nop => obtain rfl := Host.Outcome.next.inj h; exact .nothing
  | expand =>
    rcases execExpand_next h with ⟨-, rfl⟩ | ⟨hk, rfl⟩
    · exact .failed _ (by decide)
    · exact .expanded hk
  | encBlk len => exact .blockCommand h
  | decBlk len => exact .blockCommand h
  | encMsg len =>
    rcases execEncMsg_next h with ⟨-, rfl⟩ | ⟨-, -, rfl⟩ | ⟨hl, hk, d, hd, rfl⟩
    · exact .failedOutput _ (by decide)
    · exact .failedOutput _ (by decide)
    · exact .ciphered _ (by rw [encryptMessageRK_length, State.input_length hd]; exact hl) hk
  | decMsg len =>
    rcases execDecMsg_next h with ⟨-, rfl⟩ | ⟨-, -, rfl⟩ | ⟨-, -, -, rfl⟩ | ⟨-, hl, hk, d, hd, ⟨-, rfl⟩ | ⟨r, hr, rfl⟩⟩
    · exact .failedOutput _ (by decide)
    · exact .failedOutput _ (by decide)
    · exact .failedOutput _ (by decide)
    · exact .failedPadding hk
    · exact .ciphered _ (by
        have := decryptMessageRK_ok_length hr
        have := State.input_length hd
        omega) hk
  | pad len =>
    rcases execPad_next h with ⟨-, rfl⟩ | ⟨hl, d, hd, rfl⟩
    · exact .failedOutput _ (by decide)
    · exact .delivered _ (by rw [pad_length, State.input_length hd]; exact hl)
  | unpad len =>
    rcases execUnpad_next h with ⟨-, rfl⟩ | ⟨-, -, -, rfl⟩ | ⟨-, -, hl, d, hd, ⟨-, rfl⟩ | ⟨r, hr, rfl⟩⟩
    · exact .failedOutput _ (by decide)
    · exact .failedOutput _ (by decide)
    · exact .failedOutput _ (by decide)
    · exact .delivered _ (by
        have := unpad_ok_length hr
        have := State.input_length hd
        omega)
  | sub => obtain rfl := Host.Outcome.next.inj h; exact .layered _
  | isub => obtain rfl := Host.Outcome.next.inj h; exact .layered _
  | perm => obtain rfl := Host.Outcome.next.inj h; exact .layered _
  | iperm => obtain rfl := Host.Outcome.next.inj h; exact .layered _
  | addrk ridx => obtain rfl := Host.Outcome.next.inj h; exact .onRoundKey ..
  | round ridx => obtain rfl := Host.Outcome.next.inj h; exact .onRoundKey ..
  | iround ridx => obtain rfl := Host.Outcome.next.inj h; exact .onRoundKey ..

end Sys2Proof.Machine
end

