-- ==== Sys2Proof/Laws/PerInstr.lean ====
section
/-! SUPPORT. A family of statements about every command as syntax: the fields of its command word (R80). -/

namespace Sys2Proof.Laws

/-- The fields of a word put together from them. -/
theorem encode_fields (i : Instr) :
    opcField (encode i) = i.opcode ∧ ridxField (encode i) = i.ridx ∧ rsvField (encode i) = 0#5 ∧
      lenField (encode i) = i.len := by
  unfold opcField ridxField rsvField lenField encode
  refine ⟨?_, ?_, ?_, ?_⟩
  · exact BitVec.extractLsb'_append_eq_right ..
  · rw [BitVec.extractLsb'_append_eq_of_le (by omega)]
    exact BitVec.extractLsb'_append_eq_right ..
  · rw [BitVec.extractLsb'_append_eq_of_le (by omega), BitVec.extractLsb'_append_eq_of_le (by omega)]
    exact BitVec.extractLsb'_append_eq_right ..
  · rw [BitVec.extractLsb'_append_eq_of_le (by omega), BitVec.extractLsb'_append_eq_of_le (by omega),
      BitVec.extractLsb'_append_eq_of_le (by omega)]
    exact BitVec.extractLsb'_eq_self

/-- The command word holds the opcode, the operand fields and RSV = 0, each in its place (R80). -/
def EncodeFields.Statement (i : Instr) : Prop :=
  opcField (encode i) = i.opcode ∧ ridxField (encode i) = i.ridx ∧ rsvField (encode i) = 0#5 ∧
    lenField (encode i) = i.len

theorem EncodeFields.nop : EncodeFields.Statement .nop := encode_fields _
theorem EncodeFields.expand : EncodeFields.Statement .expand := encode_fields _
theorem EncodeFields.sub : EncodeFields.Statement .sub := encode_fields _
theorem EncodeFields.isub : EncodeFields.Statement .isub := encode_fields _
theorem EncodeFields.perm : EncodeFields.Statement .perm := encode_fields _
theorem EncodeFields.iperm : EncodeFields.Statement .iperm := encode_fields _
theorem EncodeFields.encBlk (len : BitVec 16) : EncodeFields.Statement (.encBlk len) := encode_fields _
theorem EncodeFields.decBlk (len : BitVec 16) : EncodeFields.Statement (.decBlk len) := encode_fields _
theorem EncodeFields.encMsg (len : BitVec 16) : EncodeFields.Statement (.encMsg len) := encode_fields _
theorem EncodeFields.decMsg (len : BitVec 16) : EncodeFields.Statement (.decMsg len) := encode_fields _
theorem EncodeFields.pad (len : BitVec 16) : EncodeFields.Statement (.pad len) := encode_fields _
theorem EncodeFields.unpad (len : BitVec 16) : EncodeFields.Statement (.unpad len) := encode_fields _
theorem EncodeFields.addrk (ridx : BitVec 3) : EncodeFields.Statement (.addrk ridx) := encode_fields _
theorem EncodeFields.round (ridx : BitVec 3) : EncodeFields.Statement (.round ridx) := encode_fields _
theorem EncodeFields.iround (ridx : BitVec 3) : EncodeFields.Statement (.iround ridx) := encode_fields _

end Sys2Proof.Laws
end

