-- ==== Sys2Proof/Laws/Step.lean ====
section
/-! SUPPORT. Everything a HOST access, a completion and a step can do, once each. -/

namespace Sys2Proof.Machine

/-- ENGINE's completion step (R202, R205): nothing when idle, an illegal word, or the decoded command. -/
theorem State.engineStep_next {s t : State} (h : s.engineStep = .next t) :
    (s.busy = false ∧ t = s) ∨
    (s.busy = true ∧ (∃ e, decode s.cmdl = .error e) ∧ t = s.fail .illegalCommand) ∨
    (s.busy = true ∧ ∃ i, decode s.cmdl = .ok i ∧ exec i s = .next t) := by
  unfold State.engineStep at h
  cases hb : s.busy
  · rw [hb] at h; exact .inl ⟨rfl, (Host.Outcome.next.inj h).symm⟩
  · rw [hb, if_pos rfl] at h
    split at h
    · next i hi => exact .inr (.inr ⟨rfl, i, hi, h⟩)
    · next e he => exact .inr (.inl ⟨rfl, ⟨e, he⟩, (Host.Outcome.next.inj h).symm⟩)

/-- The next states of ENGINE's step, as `Completed` has them. -/
theorem State.engineStep_completed {s t : State} (h : s.engineStep = .next t) :
    (s.busy = false ∧ t = s) ∨ (s.busy = true ∧ Completed s t) := by
  rcases State.engineStep_next h with ⟨hb, rfl⟩ | ⟨hb, -, rfl⟩ | ⟨hb, i, -, hi⟩
  · exact .inl ⟨hb, rfl⟩
  · exact .inr ⟨hb, .failed _ (by decide)⟩
  · exact .inr ⟨hb, exec_completed hi⟩

/-- A performed read (R54): only the count of draws changes. -/
theorem State.bus_read {s : State} {width addr : Nat} {l : Loc} (hr : s.rst = false)
    (hl : selectLoc s.cfg width addr = .ok l) :
    s.bus (.read width addr)
      = ({ s with draws := s.draws + 1 }, .data (s.readLoc l (Config.freeWord s.draws))) := by
  unfold State.bus
  simp only [hl]
  rw [if_neg (by simp [hr])]

/-- A performed write (R55). -/
theorem State.bus_write {s : State} {width addr : Nat} {v : Word} {l : Loc} (hr : s.rst = false)
    (hl : selectLoc s.cfg width addr = .ok l) (hw : l.readOnly = false) :
    s.bus (.write width addr v) = (s.writeLoc l v, .written) := by
  unfold State.bus
  simp only [hl]
  rw [if_neg (by simp [hr]), if_neg (by simp [hw])]

/-- An access made while reset is asserted (R260). -/
theorem State.bus_rst {s : State} (a : Access) (hr : s.rst = true) : s.bus a = (s, .notPerformed) := by
  cases a <;> simp [State.bus, hr]

/-- A HOST access that gives a next state: not performed under reset, a read that changes only the count of draws,
or a write to a writable location that breaks no hazard rule; and `reply` in every case. -/
theorem State.hostAccess_next {s t : State} {a : Access} (h : s.hostAccess a = .next t) :
    (s.rst = true ∧ t = { s with reply := .notPerformed }) ∨
    (s.rst = false ∧ ∃ width addr l, a = .read width addr ∧ selectLoc s.cfg width addr = .ok l ∧
      t = { s with draws := s.draws + 1, reply := .data (s.readLoc l (Config.freeWord s.draws)) }) ∨
    (s.rst = false ∧ ∃ width addr v l, a = .write width addr v ∧ selectLoc s.cfg width addr = .ok l ∧
      l.readOnly = false ∧ (s.busy = true → l.commandInput = false) ∧
      t = { s.writeLoc l v with reply := .written }) := by
  unfold State.hostAccess at h
  rcases Bool.eq_false_or_eq_true s.rst with hr | hr
  case inl =>
    have hhaz : s.inputHazard a = false := by
      cases a with
      | read => rfl
      | write width addr v => cases hl : selectLoc s.cfg width addr <;> simp [State.inputHazard, hl, hr]
    simp only [State.bus_rst a hr, hhaz] at h
    exact .inl ⟨hr, (Host.Outcome.next.inj h).symm⟩
  case inr =>
    cases a with
    | read width addr =>
      cases hl : selectLoc s.cfg width addr with
      | error e => simp [State.bus, hr, hl] at h
      | ok l =>
        simp only [State.bus_read hr hl, State.inputHazard] at h
        exact .inr (.inl ⟨hr, width, addr, l, rfl, hl, (Host.Outcome.next.inj h).symm⟩)
    | write width addr v =>
      cases hl : selectLoc s.cfg width addr with
      | error e => simp [State.bus, hr, hl] at h
      | ok l =>
        cases hro : l.readOnly with
        | true => simp [State.bus, hr, hl, hro] at h
        | false =>
          simp only [State.bus_write hr hl hro] at h
          split at h
          · cases h
          · next hz =>
            refine .inr (.inr ⟨hr, width, addr, v, l, rfl, hl, hro, fun hb => ?_,
              (Host.Outcome.next.inj h).symm⟩)
            simpa [State.inputHazard, hl, hb, hr] using hz

/-- A step: with nothing pending ENGINE's, else the first pending event's (R60, R202). -/
theorem step_nil {s : State} (h : s.pending = []) : step s = s.engineStep := by
  unfold step State.advance; rw [h]

theorem step_cons {s : State} {e : Event} {rest : List Event} (h : s.pending = e :: rest) :
    step s = State.event { s with pending := rest } e := by
  unfold step State.advance; rw [h]

/-- Every next state of a step: from the state with the event taken from the list (`s` itself when there is
none), ENGINE's step, a HOST access, or an edge of the reset input. -/
theorem step_next {s t : State} (h : step s = .next t) :
    ∃ s₀ : State, s₀ = { s with pending := s.pending.tail } ∧
      (s₀.engineStep = .next t ∨ (∃ a, s₀.hostAccess a = .next t) ∨ t = s₀.afterReset ∨
        t = { s₀ with rst := false }) := by
  refine ⟨_, rfl, ?_⟩
  cases hp : s.pending with
  | nil =>
    rw [step_nil hp] at h
    have : ({ s with pending := [] } : State) = s := by cases s; cases hp; rfl
    exact .inl (by simpa [this] using h)
  | cons e rest =>
    rw [step_cons hp] at h
    cases e with
    | host a => exact .inr (.inl ⟨a, h⟩)
    | complete => exact .inl h
    | assertReset => exact .inr (.inr (.inl (Host.Outcome.next.inj h).symm))
    | releaseReset => exact .inr (.inr (.inr (Host.Outcome.next.inj h).symm))

end Sys2Proof.Machine
end

