-- ==== Sys2Proof/Tests/Slice0.lean ====
section
/-! SUPPORT. Tests: ill-formed commands refused, words written out from the spec's encodings, one-step checks
against the vectors of 95_test_vectors.md, and a witness for the hypotheses of every statement that has some. -/

namespace Sys2Proof.Tests

open Sys2Proof.Machine

/-! ### Ill-formed commands -/

theorem test_addrk_index_out_of_range : (Instr.addrk 5#3).wellFormed = false := by decide
theorem test_round_index_out_of_range : (Instr.round 4#3).wellFormed = false := by decide
theorem test_iround_index_out_of_range : (Instr.iround 4#3).wellFormed = false := by decide
theorem test_asm_lengths_out_of_range :
    (Asm.encBlk 65536).wellFormed = false ∧ (Asm.decBlk 65536).wellFormed = false ∧
    (Asm.encMsg 65536).wellFormed = false ∧ (Asm.decMsg 65536).wellFormed = false ∧
    (Asm.pad 65536).wellFormed = false ∧ (Asm.unpad 65536).wellFormed = false := by decide
theorem test_asm_indices_out_of_range :
    (Asm.addrk 5).wellFormed = false ∧ (Asm.round 4).wellFormed = false ∧
    (Asm.iround 4).wellFormed = false ∧ (Asm.addrkRound 5).wellFormed = false := by decide
theorem test_config_out_of_range :
    ({ Config.default with base := 0x2000 } : Config).wf = false ∧
    ({ Config.default with bufSize := 8 } : Config).wf = false ∧
    ({ Config.default with bufSize := 4112 } : Config).wf = false := by decide

/-! ### Words, LEN then RSV then RIDX then OPC (R80) -/

theorem test_decode_nop : decode 0b0000000000000000_00000_000_00000000#32 = .ok .nop := rfl
theorem test_decode_expand : decode 0b0000000000000000_00000_000_00000001#32 = .ok .expand := rfl
theorem test_decode_encBlk : decode 0b0000000000010000_00000_000_00000010#32 = .ok (.encBlk 16#16) := rfl
theorem test_decode_decBlk : decode 0b0000000000010000_00000_000_00000011#32 = .ok (.decBlk 16#16) := rfl
theorem test_decode_encMsg : decode 0b0000000000000111_00000_000_00000100#32 = .ok (.encMsg 7#16) := rfl
theorem test_decode_decMsg : decode 0b0000000000010001_00000_000_00000101#32 = .ok (.decMsg 17#16) := rfl
theorem test_decode_pad : decode 0b1000000000000001_00000_000_00000110#32 = .ok (.pad 0x8001#16) := rfl
theorem test_decode_unpad : decode 0b1111111111110000_00000_000_00000111#32 = .ok (.unpad 65520#16) := rfl
theorem test_decode_sub : decode 0b0000000000000000_00000_000_00010000#32 = .ok .sub := rfl
theorem test_decode_isub : decode 0b0000000000000000_00000_000_00010001#32 = .ok .isub := rfl
theorem test_decode_perm : decode 0b0000000000000000_00000_000_00010010#32 = .ok .perm := rfl
theorem test_decode_iperm : decode 0b0000000000000000_00000_000_00010011#32 = .ok .iperm := rfl
theorem test_decode_addrk : decode 0b0000000000000000_00000_100_00010100#32 = .ok (.addrk 4#3) := rfl
theorem test_decode_round : decode 0b0000000000000000_00000_011_00010101#32 = .ok (.round 3#3) := rfl
theorem test_decode_iround : decode 0b0000000000000000_00000_010_00010110#32 = .ok (.iround 2#3) := rfl
/-- The illegal words of V10. -/
theorem test_decode_illegal :
    [0x00000008#32, 0x00000017#32, 0x000000FF#32, 0xFFFFFFFF#32, 0x00000514#32, 0x00000415#32, 0x00000416#32,
      0x00100001#32, 0x00010000#32, 0x00010014#32, 0x00000802#32, 0x00000102#32].all
      (fun w => !(decode w).isOk) = true := by decide
theorem test_decodeTableWord :
    decodeTableWord 32 0x00130004 = some (.encMsg 19#16) ∧ decodeTableWord 32 0x00000514 = none := by decide
/-- R89, R90. -/
theorem test_assembler_text :
    (parseAsm ['E', 'N', 'C', '_', 'B', 'L', 'K', ' ', '1', '6']).bind assemble = some 0x00100002#32 ∧
    (parseAsm ['R', 'O', 'U', 'N', 'D', ' ', '0', 'x', '3']).bind assemble = some 0x00000315#32 ∧
    (parseAsm ['W', 'H', 'I', 'T', 'E', 'N']).bind assemble = some 0x00000414#32 ∧
    (parseAsm ['R', 'O', 'U', 'N', 'D', ' ', '4']).bind assemble = none := by decide

/-! ### One step of each command, against 95_test_vectors.md -/

/-- An idle engine with the given KEY, KEYLEN, STATE and first bytes of IBUF. -/
def idle (key : Key) (keylen : Byte) (b : Block) (input : List Byte) : State :=
  { State.reset with
    key := key, keylen := keylen, stateReg := b
    mem := Memory.writeBytes ibufBase input [] }

/-- The same after EXPAND. -/
def keyed (key : Key) (b : Block) (input : List Byte) : State :=
  { idle key 8#8 b input with rk := expand Config.default.rc key, kv := true }

/-- The state after the step that runs a command word. -/
def after (s : State) (w : Nat) : Option State :=
  match step (s.withFetchWord 32 w) with
  | .next t => some t
  | .fault _ => none
  | .refused _ => none

/-- STATUS after a completion. -/
def status (o : Option State) : Option Word := o.map fun t => t.statusWord t.kv

/-- The bytes of OBUF[0..OLEN). -/
def output (o : Option State) : Option (List Byte) := o.bind fun t => Memory.readBytes t.mem obufBase t.olen.toNat

/-- "merhaba" (W3). -/
def merhaba : List Byte := [0x6d#8, 0x65#8, 0x72#8, 0x68#8, 0x61#8, 0x62#8, 0x61#8]

/-- V10. -/
theorem test_nop_status : status (after State.reset 0x00000000) = some 0x00000002#32 := by decide +kernel
/-- V10. -/
theorem test_illegal_status : status (after State.reset 0x00000514) = some 0x00000706#32 := by decide +kernel
/-- V4. -/
theorem test_expand_round_keys :
    (after (idle 0x0123456789abcdef#64 8#8 0#128 []) 0x00000001).map (fun t => (t.rk[0], t.rk[4], t.kv))
      = some (0x6f174efb7618b7779d86018132d3c7c3#128, 0x59f36c42b8065bdd88937c1599c7b34c#128, true) := by
  decide +kernel
/-- V4. -/
theorem test_expand_key_length : status (after (idle 0#64 9#8 0#128 []) 0x00000001) = some 0x00000106#32 := by
  decide +kernel
/-- W4. -/
theorem test_encBlk :
    (after (idle 0xba7816bf8f01cfea#64 8#8 0#128 (blockBytes 0x31323334353637383930616263646566#128))
      0x00100002).map (fun t => (t.stateReg, t.olen)) = some (0x8e1571a2b83088d320cb557e5ae3cc30#128, 16#16) := by
  decide +kernel
/-- V7: the block length is checked first. -/
theorem test_encBlk_lengths : status (after (idle 0#64 7#8 0#128 []) 0x000f0002) = some 0x00000206#32 := by
  decide +kernel
/-- V7. -/
theorem test_decBlk :
    output (after (idle 0x0123456789abcdef#64 8#8 0#128 (blockBytes 0x00112233445566778899aabbccddeeff#128))
      0x00100003) = some (blockBytes 0xbe3d4d83a5ac72e57db136af87589f1e#128) := by decide +kernel
/-- W3. -/
theorem test_encMsg :
    output (after (idle 0xecd71870d1963316#64 8#8 0#128 merhaba) 0x00070004)
      = some (blockBytes 0x67d3236bdc348fbe95f690d4aefc4337#128) := by decide +kernel
/-- V9: capacity first. -/
theorem test_encMsg_capacity : status (after (idle 0#64 0#8 0#128 []) 0x10000004) = some 0x00000506#32 := by
  decide +kernel
/-- W3. -/
theorem test_decMsg :
    output (after (idle 0xecd71870d1963316#64 8#8 0#128 (blockBytes 0x67d3236bdc348fbe95f690d4aefc4337#128))
      0x00100005) = some merhaba := by decide +kernel
/-- V9: a wrong key; RK and KV are written all the same. -/
theorem test_decMsg_wrong_key :
    status (after (idle 0#64 8#8 0#128 (blockBytes 0x67d3236bdc348fbe95f690d4aefc4337#128)) 0x00100005)
      = some 0x00000416#32 := by decide +kernel
/-- V8. -/
theorem test_pad :
    output (after (idle 0#64 0#8 0#128 merhaba) 0x00070006)
      = some (blockBytes 0x6d657268616261090909090909090909#128) := by decide +kernel
/-- V8: an aligned length gets a whole block. -/
theorem test_pad_aligned :
    output (after (idle 0#64 0#8 0#128 (blockBytes 0x000102030405060708090a0b0c0d0e0f#128)) 0x00100006)
      = some (blockBytes 0x000102030405060708090a0b0c0d0e0f#128 ++
          blockBytes 0x10101010101010101010101010101010#128) := by decide +kernel
/-- V8. -/
theorem test_unpad :
    output (after (idle 0#64 0#8 0#128 (blockBytes 0x6d657268616261090909090909090909#128)) 0x00100007)
      = some merhaba := by decide +kernel
/-- V8: n = 2, byte 14 = 0x01. -/
theorem test_unpad_corrupted :
    status (after (idle 0#64 0#8 0#128 (blockBytes 0x000102030405060708090a0b0c0d0102#128)) 0x00100007)
      = some 0x00000406#32 := by decide +kernel
/-- V1. -/
theorem test_sub :
    (after (idle 0#64 0#8 0x00112233445566778899aabbccddeeff#128 []) 0x00000010).map State.stateReg
      = some 0xcc5566bb9900aadd33eeff8844771122#128 := by decide +kernel
/-- V1. -/
theorem test_isub :
    (after (idle 0#64 0#8 0x00112233445566778899aabbccddeeff#128 []) 0x00000011).map State.stateReg
      = some 0x55eeff88cc1122ddbb446633007799aa#128 := by decide +kernel
/-- V2. -/
theorem test_perm :
    (after (idle 0#64 0#8 0x00112233445566778899aabbccddeeff#128 []) 0x00000012).map State.stateReg
      = some 0x65718ad3889bf6521a9d2e895f712369#128 := by decide +kernel
/-- V2. -/
theorem test_iperm :
    (after (idle 0#64 0#8 0x00112233445566778899aabbccddeeff#128 []) 0x00000013).map State.stateReg
      = some 0x21c171b5270aad0d3897782bccf2cc7f#128 := by decide +kernel
/-- V5. -/
theorem test_addrk :
    (after (keyed 0#64 0x86cc1a01bcc39c6d62d94abad0bb1214#128 []) 0x00000414).map State.stateReg
      = some 0x63e186513093bf2a5694c6bd7d2ad9c2#128 := by decide +kernel
/-- V5: KV = 0. -/
theorem test_addrk_no_round_keys : status (after State.reset 0x00000414) = some 0x00000606#32 := by decide +kernel
/-- V5. -/
theorem test_round :
    (after (keyed 0#64 0xb2a881ae40cb467f9bc9fa3785e15958#128 []) 0x00000115).map State.stateReg
      = some 0x2390233bdebebbc97a2a7b86f15c9272#128 := by decide +kernel
/-- V6. -/
theorem test_iround :
    (after (keyed 0#64 0x86cc1a01bcc39c6d62d94abad0bb1214#128 []) 0x00000316).map State.stateReg
      = some 0x0ffa74322c37f45c1cbf7e9e8359a013#128 := by decide +kernel

/-! ### Bus accesses (V11, V12) -/

theorem test_read_id : (State.reset.bus (.read 32 0x000)).2 = .data 0x53504E31#32 := by decide
theorem test_read_status_after_reset : (State.reset.bus (.read 32 0x008)).2 = .data 0#32 := by decide
theorem test_keylen_reserved_bits :
    ((State.reset.bus (.write 32 0x014 0xFFFFFF08#32)).1.bus (.read 32 0x014)).2 = .data 0x8#32 := by decide
theorem test_key_lanes :
    (State.reset.bus (.write 32 0x020 0x01234567#32)).1.keyBytes.take 4 = [0x01#8, 0x23#8, 0x45#8, 0x67#8] := by
  decide
theorem test_state_lanes :
    blockBit (State.reset.bus (.write 32 0x030 0x80000000#32)).1.stateReg 0 = true := by decide
theorem test_top_of_ibuf :
    ((State.reset.bus (.write 32 0x1FFC 0x11223344#32)).1.bus (.read 32 0x1FFC)).2 = .data 0x11223344#32 := by
  decide +kernel
theorem test_bus_errors :
    (State.reset.bus (.read 32 0x001)).2 = .error .misaligned ∧
    (State.reset.bus (.read 8 0x000)).2 = .error .wrongWidth ∧
    (State.reset.bus (.read 32 0x018)).2 = .error .reserved ∧
    (State.reset.bus (.read 32 0x0FFC)).2 = .error .reserved ∧
    (State.reset.bus (.read 32 0x3000)).2 = .error .reserved ∧
    (State.reset.bus (.write 32 0x2000 0#32)).2 = .error .readOnly ∧
    (({ State.reset with cfg := { Config.default with bufSize := 16 } } : State).bus (.read 32 0x1010)).2
      = .error .unbacked := by decide
theorem test_status_write_clears_done_and_ovr :
    let s := { State.reset with done := true, ovr := true, kv := true }
    (s.statusWord s.kv, (s.clearStatus 0x0A#32).statusWord true) = (0x1A#32, 0x10#32) := by decide

/-! ### Witnesses: for every statement with hypotheses, values that meet them together, at the ends of the ranges
its clauses speak of. Each is named after its statement. -/

/-- The state an outcome goes on with. -/
def nextOf : Host.Outcome State Fault Refusal → Option State
  | .next t => some t
  | .fault _ => none
  | .refused _ => none

theorem eq_next_of_nextOf {o : Host.Outcome State Fault Refusal} {t : State} (h : nextOf o = some t) :
    o = .next t := by
  cases o with
  | next s => exact congrArg _ (Option.some.inj h)
  | fault => cases h
  | refused => cases h

/-- What an outcome faults with. -/
def faultOf : Host.Outcome State Fault Refusal → Option Fault
  | .next _ => none
  | .fault f => some f
  | .refused _ => none

theorem eq_fault_of_faultOf {o : Host.Outcome State Fault Refusal} {f : Fault} (h : faultOf o = some f) :
    o = .fault f := by
  cases o with
  | next => cases h
  | fault g => exact congrArg _ (Option.some.inj h)
  | refused => cases h

/-- An engine that runs a command word, with the given events still to come. -/
def running (w : Word) (l : List Event) : State := { State.reset with busy := true, cmdl := w, pending := l }

/-- An engine with the smallest buffers of R9, idle, with the given key and first bytes of IBUF. -/
def small (key : Key) (keylen : Byte) (input : List Byte) : State :=
  { idle key keylen 0#128 input with cfg := { Config.default with bufSize := 16 } }

theorem witness_DecodeInvertsEncode :
    (Instr.addrk 4#3).wellFormed = true ∧ (Instr.round 3#3).wellFormed = true ∧
    (Instr.iround 3#3).wellFormed = true ∧ (Instr.unpad 65535#16).wellFormed = true := by decide

theorem witness_DecodedWordIsItsEncoding : decode 0xFFFF0007#32 = .ok (.unpad 65535#16) := rfl

/-- The last operand in range, and the first out of it, of each kind. -/
theorem witness_AssemblerRefusesOperandsOutOfRange :
    assemble (.encBlk 65535) = some 0xFFFF0002#32 ∧ assemble (.unpad 65536) = none ∧
    assemble (.addrk 4) = some 0x00000414#32 ∧ assemble (.addrkRound 5) = none ∧
    assemble (.iround 3) = some 0x00000316#32 ∧ assemble (.round 4) = none := by decide

theorem witness_StepRunsDecodedCommand :
    (running 0x414#32 []).busy = true ∧ decode (running 0x414#32 []).cmdl = .ok (.addrk 4#3) ∧
    (Instr.addrk 4#3).wellFormed = true ∧ (running 0x414#32 []).pending = [] ∧
    (running 0x414#32 [.complete]).pending = .complete :: [] := ⟨rfl, rfl, rfl, rfl, rfl⟩

theorem witness_IllegalWordCompletesWithCodeSeven :
    (running 0x514#32 []).busy = true ∧ decode (running 0x514#32 []).cmdl = .error .ridxRange ∧
    (running 0x514#32 []).pending = [] ∧ (running 0x514#32 [.complete]).pending = .complete :: [] :=
  ⟨rfl, rfl, rfl, rfl⟩

theorem witness_StepTakesTheNextEvent :
    (State.reset.busy = false ∧ State.reset.pending = []) ∧
    ({ State.reset with pending := [.complete] } : State).pending = .complete :: [] ∧
    (running 0#32 [.host (.read 32 8)]).pending = .host (.read 32 8) :: [] ∧
    (running 0#32 [.releaseReset]).pending = .releaseReset :: [] := ⟨⟨rfl, rfl⟩, rfl, rfl, rfl⟩

/-- A command in flight whose next event is each of those that can end it: completion, reset, a HOST fault. -/
theorem witness_BusyFallsOrTheRunFaults :
    (running 0#32 [.host (.read 32 8), .complete]).busy = true ∧ (running 0#32 [.assertReset]).busy = true ∧
    (running 0#32 [.host (.read 32 8), .host (.read 8 0)]).busy = true ∧
    faultOf (step (running 0#32 [.host (.read 8 0)])) = some (.busError .wrongWidth) ∧
    faultOf (step (running 0x00100006#32 [])) = some .unwrittenInput := by decide +kernel

theorem witness_KeyScheduleByteByByte : (be64 0#64).length = 8 ∧ (be64 0#64 ++ [0#8]).length ≠ 8 := by decide

theorem witness_BlockTransformsRoundTrip :
    (blockBytes 0#128).length = 16 ∧ (be64 0#64).length = 8 ∧ (be64 0#64).length ≠ 16 ∧
    ([] : List Byte).length ≠ 8 := by decide

theorem witness_MessageTransformsRoundTrip : (be64 0xecd71870d1963316#64).length = 8 := by decide

theorem witness_MessageLengthsAreWholeBlocks :
    (encryptMessage Config.default.rc merhaba (be64 0#64)).isOk = true ∧
    (blockBytes 0#128 ++ [0#8]).length % 16 ≠ 0 := by decide +kernel

theorem witness_MessageBlocksAreIndependent :
    (encryptMessage Config.default.rc (blockBytes 0#128) (be64 0#64)).isOk = true ∧
    1 < (pad (blockBytes 0#128)).length / 16 := by decide +kernel

theorem witness_DamagedPaddingIsRejected :
    (0#8).toNat = 0 ∧ 16 < (17#8).toNat ∧
    (14 + 1 < padCount ([] : List Byte).length ∧ 15#8 ≠ BitVec.ofNat 8 (padCount ([] : List Byte).length)) ∧
    (blockBytes 0#128).length % 16 = 0 := by decide

theorem witness_ExpandCommandWritesRoundKeys :
    (idle 0#64 8#8 0#128 []).keylen = 8#8 ∧ (idle 0#64 9#8 0#128 []).keylen ≠ 8#8 := by decide

theorem witness_RoundCommandsReplaceState :
    (keyed 0#64 0#128 []).kv = true ∧ (4#3).toNat ≤ 4 ∧ (3#3).toNat ≤ 3 := by decide

theorem witness_RoundCommandsFailWithoutRoundKeys :
    State.reset.kv = false ∧ (4#3).toNat ≤ 4 ∧ (3#3).toNat ≤ 3 ∧ 4 < (5#3).toNat ∧ 3 < (4#3).toNat := by decide

theorem witness_RoundCommandSequencesAreTheBlockTransforms :
    (keyed 0#64 0#128 []).kv = true ∧ (keyed 0#64 0#128 []).RoundKeysCurrent := ⟨rfl, fun _ => ⟨rfl, rfl⟩⟩

theorem witness_EncBlkEncryptsTheInputBlock :
    (idle 0#64 8#8 0#128 (blockBytes 1#128)).keylen = 8#8 ∧ (blockBytes 1#128).length = 16 ∧
    (idle 0#64 8#8 0#128 (blockBytes 1#128)).inputIs (blockBytes 1#128) := by
  refine ⟨rfl, rfl, ?_⟩; unfold State.inputIs; decide +kernel

theorem witness_DecBlkDecryptsTheInputBlock :
    (idle 0#64 8#8 0#128 (blockBytes 2#128)).keylen = 8#8 ∧ (blockBytes 2#128).length = 16 ∧
    (idle 0#64 8#8 0#128 (blockBytes 2#128)).inputIs (blockBytes 2#128) := by
  refine ⟨rfl, rfl, ?_⟩; unfold State.inputIs; decide +kernel

theorem witness_BlockCommandsFailOnLengths :
    ((15#16).toNat ≠ 16 ∧ (17#16).toNat ≠ 16) ∧ (16#16).toNat = 16 ∧ (idle 0#64 7#8 0#128 []).keylen ≠ 8#8 := by
  decide

/-- The longest message that buffers of 16 bytes take. -/
theorem witness_EncMsgDeliversTheEncryptedMessage :
    let d := (blockBytes 7#128).take 15
    (small 0#64 8#8 d).cfg.wf = true ∧ (15#16).toNat < (small 0#64 8#8 d).cfg.bufSize ∧
    (small 0#64 8#8 d).keylen = 8#8 ∧ d.length = (15#16).toNat ∧ (small 0#64 8#8 d).inputIs d := by
  refine ⟨rfl, by decide, rfl, rfl, ?_⟩; unfold State.inputIs; decide +kernel

/-- The ciphertext of W3. -/
def w3Ciphertext : List Byte := blockBytes 0x67d3236bdc348fbe95f690d4aefc4337#128

/-- The ciphertext of W3 under its key (the first clause) and under another one (the second). -/
theorem witness_DecMsgDeliversTheDecryptedMessage :
    let s := small 0xecd71870d1963316#64 8#8 w3Ciphertext
    let s' := small 0#64 8#8 w3Ciphertext
    (s.cfg.wf = true ∧ (16#16).toNat % 16 = 0 ∧ (16#16).toNat ≤ s.cfg.bufSize ∧ s.keylen = 8#8 ∧
      w3Ciphertext.length = (16#16).toNat ∧ s.inputIs w3Ciphertext ∧
      (decryptMessage s.cfg.rc w3Ciphertext (be64 s.key)).isOk = true) ∧
    (s'.cfg.wf = true ∧ (16#16).toNat ≤ s'.cfg.bufSize ∧ s'.keylen = 8#8 ∧ s'.inputIs w3Ciphertext ∧
      (decryptMessage s'.cfg.rc w3Ciphertext (be64 s'.key)).isOk = false) := by
  unfold State.inputIs; decide +kernel

theorem witness_MessageCiphersFailBeforeReading :
    (small 0#64 0#8 []).cfg.wf = true ∧ (small 0#64 0#8 []).keylen ≠ 8#8 ∧
    (small 0#64 0#8 []).cfg.bufSize ≤ (16#16).toNat ∧ (15#16).toNat < (small 0#64 0#8 []).cfg.bufSize ∧
    (1#16).toNat % 16 ≠ 0 ∧ (32#16).toNat % 16 = 0 ∧ (small 0#64 0#8 []).cfg.bufSize < (32#16).toNat ∧
    (16#16).toNat % 16 = 0 ∧ (16#16).toNat ≤ (small 0#64 0#8 []).cfg.bufSize := by decide

theorem witness_PadCommandDeliversThePaddedInput :
    let d := (blockBytes 7#128).take 15
    (small 0#64 0#8 d).cfg.wf = true ∧ (15#16).toNat < (small 0#64 0#8 d).cfg.bufSize ∧
    d.length = (15#16).toNat ∧ (small 0#64 0#8 d).inputIs d ∧ (small 0#64 0#8 d).cfg.bufSize ≤ (16#16).toNat := by
  refine ⟨rfl, by decide, rfl, ?_, by decide⟩; unfold State.inputIs; decide +kernel

theorem witness_UnpadCommandStripsThePadding :
    (small 0#64 0#8 (pad merhaba)).cfg.wf = true ∧
    ((16#16).toNat ≤ (small 0#64 0#8 (pad merhaba)).cfg.bufSize ∧ (pad merhaba).length = (16#16).toNat ∧
      (small 0#64 0#8 (pad merhaba)).inputIs (pad merhaba)) ∧
    (15#16).toNat % 16 ≠ 0 ∧
    ((32#16).toNat ≠ 0 ∧ (32#16).toNat % 16 = 0 ∧ (small 0#64 0#8 []).cfg.bufSize < (32#16).toNat) := by
  refine ⟨rfl, ⟨by decide, rfl, ?_⟩, by decide, by decide⟩; unfold State.inputIs; decide +kernel

/-- The clause of R193 on contents: 16 zero bytes are no padded sequence. -/
theorem witness_UnpadCommandStripsThePadding_content :
    (small 0#64 0#8 (blockBytes 0#128)).inputIs (blockBytes 0#128) ∧ (blockBytes 0#128).length = (16#16).toNat ∧
    ∀ p : List Byte, blockBytes 0#128 ≠ pad p := by
  refine ⟨by unfold State.inputIs; decide +kernel, rfl, fun p h => ?_⟩
  have hl : (pad p).getLast? = some (BitVec.ofNat 8 (padCount p.length)) := by
    have hn : padCount p.length ≠ 0 := by unfold padCount; omega
    simp [pad, List.getLast?_append, List.getLast?_replicate, hn]
  rw [← h, show (blockBytes 0#128).getLast? = some 0#8 from rfl] at hl
  have h8 := congrArg BitVec.toNat (Option.some.inj hl)
  have hb : 1 ≤ padCount p.length ∧ padCount p.length ≤ 16 := by unfold padCount; omega
  rw [BitVec.toNat_ofNat] at h8
  simp only [BitVec.toNat_ofNat] at h8
  omega

theorem witness_DecMsgUndoesEncMsg :
    let key := 0xecd71870d1963316#64
    let c := blockBytes 0x67d3236bdc348fbe95f690d4aefc4337#128
    let s := idle key 8#8 0#128 merhaba
    let t := (s.expandKey.deliver c).complete .noError
    let s' := idle key 8#8 1#128 c
    s.cfg.wf = true ∧ (7#16).toNat < s.cfg.bufSize ∧ s.keylen = 8#8 ∧ merhaba.length = (7#16).toNat ∧
    s.inputIs merhaba ∧ exec (.encMsg 7#16) s = .next t ∧
    s'.cfg = s.cfg ∧ s'.key = s.key ∧ s'.keylen = 8#8 ∧ c.length = t.olen.toNat ∧ t.outputIs c ∧
    s'.inputIs c := by
  refine ⟨rfl, by decide, rfl, rfl, ?_, eq_next_of_nextOf (by decide +kernel), rfl, rfl, rfl, rfl, ?_, ?_⟩
  · unfold State.inputIs; decide +kernel
  · unfold State.outputIs; decide +kernel
  · unfold State.inputIs; decide +kernel

/-- Fifteen bytes of sixteen are written (R43's own example is twelve). -/
theorem witness_UnwrittenInputFaults :
    let s := small 0#64 8#8 ((blockBytes 7#128).take 15)
    Memory.read s.mem (ibufBase + 15) = none ∧ 15 < 16 ∧ s.keylen = 8#8 ∧ 15 < (16#16).toNat ∧ s.cfg.wf = true ∧
    (16#16).toNat ≤ s.cfg.bufSize ∧ (16#16).toNat % 16 = 0 := by decide +kernel

/-- The clauses of the same statement on LEN below BUFSZ. -/
theorem witness_UnwrittenInputFaults_below_capacity :
    let s := small 0#64 8#8 ((blockBytes 7#128).take 14)
    Memory.read s.mem (ibufBase + 14) = none ∧ s.keylen = 8#8 ∧ 14 < (15#16).toNat ∧ s.cfg.wf = true ∧
    (15#16).toNat < s.cfg.bufSize := by decide +kernel

theorem witness_EveryCompletionSetsTheStatus :
    (nextOf (exec (.encBlk 15#16) State.reset)).isSome = true ∧ (nextOf (exec .nop State.reset)).isSome = true := by
  decide +kernel

/-- Errors of commands that write OLEN and that do not, and DEC_MSG's INVALID_PADDING. -/
theorem witness_ErrorEffectOfEveryCommand :
    (nextOf (exec .expand State.reset)).map State.errcode = some .invalidKeyLength ∧
    (nextOf (exec (.encBlk 15#16) State.reset)).map State.errcode = some .invalidBlockLength ∧
    (nextOf (exec (.decMsg 0#16) (idle 0#64 8#8 0#128 []))).map State.errcode = some .invalidPadding := by
  decide +kernel

/-- NOP, a layer command, a message command and a round command go on, in buffers of a legal size. -/
theorem witness_CommandsWriteOnlyTheirWriteSet :
    (nextOf (exec .nop State.reset)).isSome = true ∧ (nextOf (exec .sub State.reset)).isSome = true ∧
    (nextOf (exec (.pad 0#16) State.reset)).isSome = true ∧
    (nextOf (exec (.addrk 4#3) (keyed 0#64 0#128 []))).isSome = true ∧ State.reset.cfg.wf = true := by
  decide +kernel

/-- Another OBUF; a command that goes on and one that faults. -/
theorem witness_CommandsIgnoreOutputsAndInterruptEnable :
    State.reset.cfg.wf = true ∧
    (∀ a, a < obufBase → Memory.read (Memory.write obufBase 1#8 State.reset.mem) a = Memory.read State.reset.mem a) ∧
    (nextOf (exec (.pad 0#16) State.reset)).isSome = true ∧
    exec (.pad 1#16) State.reset = .fault .unwrittenInput := by
  refine ⟨rfl, fun a ha => ?_, by decide +kernel, eq_fault_of_faultOf (by decide +kernel)⟩
  rw [Memory.read_write, if_neg (by omega)]

/-- The last word of each window holds values in some of its lanes or in none. -/
theorem witness_IdleReads :
    let s := idle 0#64 0#8 0#128 []
    s.rst = false ∧ s.busy = false ∧ s.cfg.wf = true ∧ 4092 < s.cfg.bufSize ∧ 4092 % 4 = 0 ∧
    Memory.read (Memory.write 0x1FFF 7#8 s.mem) (0x1000 + 4092 + 3) = some 7#8 ∧
    (0x08C = 0x040 + 0x10 * 4 + 4 * 3 ∧ 0x03C = 0x030 + 4 * 3) := by decide +kernel

/-- The last word of the smallest IBUF, of whose lanes only the first three hold values. -/
theorem witness_BusyReadsThatAreExact :
    let s := { small 0#64 0#8 ((blockBytes 7#128).take 15) with busy := true }
    s.rst = false ∧ s.busy = true ∧ 12 < s.cfg.bufSize ∧ s.cfg.bufSize ≤ 4096 ∧ 12 % 4 = 0 ∧
    Memory.read s.mem (ibufBase + 12 + 2) = some 0#8 ∧ Memory.read s.mem (ibufBase + 12 + 3) = none := by
  decide +kernel

/-- The last word of STATE, of RK and of OBUF. -/
theorem witness_BusyOutputReadsAnswerAndChangeNothing :
    let s := running 0#32 []
    s.rst = false ∧ s.busy = true ∧ (0x03C = 0x030 + 4 * 3 ∧ 0x08C = 0x040 + 0x10 * 4 + 4 * 3) ∧
    4092 < s.cfg.bufSize ∧ s.cfg.bufSize ≤ 4096 ∧ 4092 % 4 = 0 := by decide

theorem witness_IdleRegisterWrites : State.reset.rst = false ∧ State.reset.busy = false := ⟨rfl, rfl⟩

theorem witness_InputWordIsReadBack :
    State.reset.rst = false ∧ State.reset.busy = false ∧ State.reset.cfg.wf = true ∧
    4092 < State.reset.cfg.bufSize ∧ 4092 % 4 = 0 := by decide

theorem witness_BusErrorsAreExactlyTheMalformedAccesses :
    State.reset.rst = false ∧ State.reset.cfg.wf = true ∧ 0x3FFF < 0x4000 ∧
    (State.reset.bus (.read 32 0x3FFC)).2 = .error .reserved := by decide

theorem witness_CommandWriteIsAcceptedOrDropped :
    State.reset.rst = false ∧ State.reset.busy = false ∧ (running 0#32 []).rst = false ∧
    (running 0#32 []).busy = true := by decide

theorem witness_InputWritesWhileBusyFault :
    let s := { small 0#64 0#8 [] with busy := true }
    s.rst = false ∧ s.busy = true ∧ s.cfg.wf = true ∧
    ∀ off ∈ [0x014, 0x020, 0x024, 0x030, 0x03C, 0x1000, 0x100C],
      off % 4 = 0 ∧ (off = 0x014 ∨ (0x020 ≤ off ∧ off < 0x028) ∨ (0x030 ≤ off ∧ off < 0x040) ∨
        (0x1000 ≤ off ∧ off < 0x1000 + s.cfg.bufSize)) := by decide

/-- A completion, and the writes that lower the interrupt. -/
theorem witness_InterruptFollowsDoneAndEnable :
    let s := { State.reset with ie := true, done := true }
    (nextOf (exec .nop s)).isSome = true ∧ s.rst = false ∧ s.busy = false ∧ (2#32).getLsbD 1 = true ∧
    (nextOf (s.hostAccess (.write 32 0x008 2#32))).isSome = true ∧
    (nextOf (s.hostAccess (.write 32 0x004 2#32))).isSome = true ∧ (2#32).getLsbD 0 = false ∧
    (nextOf (s.hostAccess (.write 32 0x00C 2#32))).isSome = true := by decide

theorem witness_ResetOverridesEverything :
    (running 0#32 [.assertReset]).pending = .assertReset :: [] ∧
    ({ State.reset with rst := true, pending := [.host (.read 32 8)] } : State).rst = true ∧
    ({ State.reset with rst := true, pending := [.host (.read 32 8)] } : State).pending = .host (.read 32 8) :: [] :=
  ⟨rfl, rfl, rfl⟩

/-- An engine that has just accepted PAD 0. -/
theorem witness_StepKeepsBuffersWellFormed :
    (running 6#32 []).BuffersWellFormed ∧ (nextOf (step (running 6#32 []))).isSome = true := by
  refine ⟨⟨List.Pairwise.nil, rfl, by decide, fun a h => absurd rfl h, fun a h1 h2 => ?_⟩, by decide +kernel⟩
  have : (running 6#32 []).olen.toNat = 0 := rfl
  omega

theorem witness_StepKeepsStatusConsistent :
    (running 2#32 []).StatusConsistent ∧ (nextOf (step (running 2#32 []))).isSome = true :=
  ⟨⟨by decide, rfl, fun _ => rfl⟩, by decide +kernel⟩

theorem witness_StepKeepsRoundKeysCurrent :
    ((keyed 5#64 0#128 []).withFetchWord 32 0x14).RoundKeysCurrent ∧
    (nextOf (step ((keyed 5#64 0#128 []).withFetchWord 32 0x14))).isSome = true :=
  ⟨fun _ => ⟨rfl, rfl⟩, by decide +kernel⟩

theorem witness_StepKeepsResetHeld :
    ({ State.reset.afterReset with pending := [.host (.read 32 8)] } : State).ResetHeld ∧
    ({ State.reset.afterReset with pending := [.host (.read 32 8)] } : State).rst = true ∧
    (nextOf (step { State.reset.afterReset with pending := [.host (.read 32 8)] })).isSome = true :=
  ⟨fun _ => rfl, rfl, by decide +kernel⟩

end Sys2Proof.Tests
end

section
/-! Proofs: the parameters of R9, the backed part of IBUF, and the error effect as an empty delivery. -/

namespace Sys2Proof.Machine

theorem Config.wf_iff (c : Config) :
    c.wf = true ↔
      c.base % 0x4000 = 0 ∧ c.bufSize % 16 = 0 ∧ 16 ≤ c.bufSize ∧ c.bufSize ≤ 4096 := by
  simp [Config.wf, and_assoc]

/-- An IBUF location that an access can select lies, as a whole word, in the backed part of IBUF (R58). -/
theorem selectLoc_eq_ibuf {c : Config} {width addr a : Nat} (h : selectLoc c width addr = .ok (.ibuf a)) :
    a < c.bufSize ∧ a % 4 = 0 := by
  unfold selectLoc at h
  split at h
  · cases h
  split at h
  · cases h
  split at h
  · cases h
  next haligned =>
    generalize addr - c.base = off at h haligned
    unfold locate at h
    iterate 12 obtain ⟨-, h⟩ := (ite_eq_iff.mp h).resolve_left (by simp)
    rcases ite_eq_iff.mp h with ⟨-, h⟩ | ⟨-, h⟩
    · obtain ⟨hbacked, h⟩ := (ite_eq_iff.mp h).resolve_right (by simp)
      obtain rfl := Loc.ibuf.inj (Except.ok.inj h)
      omega
    · rcases ite_eq_iff.mp h with ⟨-, h⟩ | ⟨-, h⟩
      · rcases ite_eq_iff.mp h with ⟨-, h⟩ | ⟨-, h⟩ <;> cases h
      · cases h

/-- Failing an OLEN-writing command is delivering nothing and completing with the error (R37, R226). -/
theorem State.failOutput_eq_deliver_nil (c : ErrCode) (s : State) :
    s.failOutput c = (s.deliver []).complete c := rfl

end Sys2Proof.Machine
end

section
/-! Proofs: what a predicate has to survive so that every step keeps it. -/

namespace Sys2Proof.Machine

/-- `P` survives each way in which a step makes its next state: the model's own fields written, a completion, a HOST
write, and the two edges of the reset input. -/
structure StepClosed (P : State → Prop) : Prop where
  pending : ∀ s l, P s → P { s with pending := l }
  answered : ∀ s n r, P s → P { s with draws := n, reply := r }
  completed : ∀ s t, s.busy = true → Completed s t → P s → P t
  writeLoc : ∀ s width addr l v, s.rst = false → selectLoc s.cfg width addr = .ok l → P s → P (s.writeLoc l v)
  afterReset : ∀ s, P s → P s.afterReset
  released : ∀ s, P s → P { s with rst := false }

/-- A predicate that is closed in this sense is kept by every step. -/
theorem StepClosed.step {P : State → Prop} (hP : StepClosed P) {s t : State} (hs : P s)
    (h : step s = .next t) : P t := by
  obtain ⟨s₀, htail, hstep⟩ := step_next h
  have hs₀ : P s₀ := htail ▸ hP.pending s s.pending.tail hs
  rcases hstep with heng | ⟨a, hhost⟩ | rfl | rfl
  · rcases State.engineStep_completed heng with ⟨-, rfl⟩ | ⟨hb, hc⟩
    · exact hs₀
    · exact hP.completed _ _ hb hc hs₀
  · rcases State.hostAccess_next hhost with ⟨-, rfl⟩ | ⟨-, width, addr, l, -, -, rfl⟩ |
      ⟨hrst, width, addr, v, l, -, hl, -, -, rfl⟩
    · exact hP.answered s₀ s₀.draws _ hs₀
    · exact hP.answered s₀ (s₀.draws + 1) _ hs₀
    · exact hP.answered (s₀.writeLoc l v) (s₀.writeLoc l v).draws _ (hP.writeLoc _ _ _ _ v hrst hl hs₀)
  · exact hP.afterReset _ hs₀
  · exact hP.released _ hs₀

end Sys2Proof.Machine
end

section
/-! Proofs: the buffers' invariant (O56). -/

namespace Sys2Proof.Machine

/-- The buffers' invariant looks at the memory, the parameters and OLEN only. -/
theorem State.BuffersWellFormed.congr {s t : State} (h : s.BuffersWellFormed) (hmem : t.mem = s.mem)
    (hcfg : t.cfg = s.cfg) (holen : t.olen = s.olen) : t.BuffersWellFormed := by
  unfold State.BuffersWellFormed
  rw [hmem, hcfg, holen]
  exact h

theorem State.BuffersWellFormed.cfg_wf {s : State} (h : s.BuffersWellFormed) : s.cfg.wf = true := by
  obtain ⟨-, hcfg, -⟩ := h
  exact hcfg

/-- Delivering an output that fits OBUF keeps the buffers' invariant: OLEN holds the exact length, and what the old
output had left in OBUF is forgotten (R37). -/
theorem State.BuffersWellFormed.deliver {s : State} (h : s.BuffersWellFormed) {d : List Byte}
    (hd : d.length ≤ s.cfg.bufSize) : (s.deliver d).BuffersWellFormed := by
  obtain ⟨hcanon, hcfg, holen, hsome, -⟩ := h
  obtain ⟨-, -, -, hsize⟩ := (Config.wf_iff _).mp hcfg
  have hlen : (s.deliver d).olen.toNat = d.length := by simp; omega
  refine ⟨Memory.writeBytes_wf _ _ (Memory.forget_wf _ _ hcanon), hcfg, ?_, fun a ha => ?_, fun a hlo hhi => ?_⟩
  · rw [hlen]; exact hd
  · rw [hlen, State.deliver_cfg]
    rw [State.deliver_mem, Memory.read_deliver] at ha
    split at ha
    · next hout => exact .inr hout
    · split at ha
      · exact absurd rfl ha
      · next hnotObuf =>
        have hold := hsome a ha
        simp only [obufBase, obufEnd] at hnotObuf hold
        omega
  · rw [hlen] at hhi
    rw [State.deliver_mem, Memory.read_deliver, if_pos ⟨hlo, hhi⟩,
      List.getElem?_eq_getElem (show a - obufBase < d.length by omega)]
    exact Option.some_ne_none _

/-- A word written to the backed part of IBUF keeps the buffers' invariant: the word ends below BUFSZ, which is a
multiple of 16, so below OBUF too (R36, R58). -/
theorem State.BuffersWellFormed.writeIbuf {s : State} (h : s.BuffersWellFormed) {a : Nat}
    (ha : a < s.cfg.bufSize) (haligned : a % 4 = 0) (v : Word) :
    (s.writeLoc (.ibuf a) v).BuffersWellFormed := by
  obtain ⟨hcanon, hcfg, holen, hsome, hfull⟩ := h
  obtain ⟨-, hmod, -, hsize⟩ := (Config.wf_iff _).mp hcfg
  have hread (b : Nat) : Memory.read (s.writeLoc (.ibuf a) v).mem b
      = if ibufBase + a ≤ b ∧ b < ibufBase + a + 4 then (wordBytes v)[b - (ibufBase + a)]?
        else Memory.read s.mem b := Memory.read_writeBytes ..
  refine ⟨Memory.writeBytes_wf _ _ hcanon, hcfg, holen, fun b hb => ?_, fun b hlo hhi => ?_⟩
  · rw [hread] at hb
    split at hb
    · next hword =>
      show (_ ∧ b < ibufBase + s.cfg.bufSize) ∨ _
      omega
    · exact hsome b hb
  · rw [hread, if_neg (by simp only [ibufBase, obufBase] at *; omega)]
    exact hfull b hlo hhi

/-- Every command's completion keeps the buffers' invariant. -/
theorem State.BuffersWellFormed.completed {s t : State} (h : s.BuffersWellFormed) (hc : Completed s t) :
    t.BuffersWellFormed := by
  obtain ⟨-, -, hblock, -⟩ := (Config.wf_iff _).mp h.cfg_wf
  have hkey : s.expandKey.BuffersWellFormed := h.congr rfl rfl rfl
  cases hc with
  | nothing => exact h.congr rfl rfl rfl
  | failed c hc => exact h.congr rfl rfl rfl
  | failedOutput c hc => exact (h.deliver (d := []) (Nat.zero_le _)).congr rfl rfl rfl
  | failedPadding hk => exact (hkey.deliver (d := []) (Nat.zero_le _)).congr rfl rfl rfl
  | expanded hk => exact h.congr rfl rfl rfl
  | layered b => exact h.congr rfl rfl rfl
  | delivered d hd => exact (h.deliver hd).congr rfl rfl rfl
  | ciphered d hd hk => exact (hkey.deliver hd).congr rfl rfl rfl
  | blocked b hk =>
    have hfits : (blockBytes b).length ≤ s.expandKey.cfg.bufSize := by rw [blockBytes_length]; exact hblock
    exact (hkey.deliver hfits).congr (by simp) rfl (by simp)

/-- A CMD write touches no buffer. -/
theorem State.BuffersWellFormed.issue {s : State} (h : s.BuffersWellFormed) (v : Word) :
    (s.issue v).BuffersWellFormed := by
  unfold State.issue
  split <;> exact h.congr rfl rfl rfl

/-- A HOST write keeps the buffers' invariant: only a write to IBUF touches them. -/
theorem State.BuffersWellFormed.writeLoc {s : State} {width addr : Nat} {l : Loc} (h : s.BuffersWellFormed)
    (hl : selectLoc s.cfg width addr = .ok l) (v : Word) : (s.writeLoc l v).BuffersWellFormed := by
  cases l with
  | ibuf a =>
    obtain ⟨ha, haligned⟩ := selectLoc_eq_ibuf hl
    exact h.writeIbuf ha haligned v
  | cmd => exact h.issue v
  | id | olen | rk | obuf => exact h
  | status | irqen | keylen | key | state => exact h.congr rfl rfl rfl

/-- An empty memory with OLEN = 0 is well formed under every legal configuration. -/
theorem State.buffersWellFormed_of_empty {s : State} (hmem : s.mem = []) (hcfg : s.cfg.wf = true)
    (holen : s.olen = 0#16) : s.BuffersWellFormed := by
  unfold State.BuffersWellFormed
  rw [hmem, holen]
  refine ⟨List.Pairwise.nil, hcfg, Nat.zero_le _, fun a ha => absurd (Memory.read_nil a) ha, fun a hlo hhi => ?_⟩
  simp at hhi
  omega

theorem stepClosed_buffersWellFormed : StepClosed State.BuffersWellFormed where
  pending _ _ h := h.congr rfl rfl rfl
  answered _ _ _ h := h.congr rfl rfl rfl
  completed _ _ _ hc h := h.completed hc
  writeLoc _ _ _ _ v _ hl h := h.writeLoc hl v
  afterReset _ h := State.buffersWellFormed_of_empty rfl h.cfg_wf rfl
  released _ h := h.congr rfl rfl rfl

/-- Settles O56: the invariant survives deliveries into OBUF and word writes to IBUF, and nothing else of a step
touches what it speaks of. -/
theorem stepKeepsBuffersWellFormed : Obligations.StepKeepsBuffersWellFormed := by
  unfold Obligations.StepKeepsBuffersWellFormed
  exact fun s t hs h => stepClosed_buffersWellFormed.step hs h

end Sys2Proof.Machine
end

section
/-! Proofs: the meaning of KV (O58), the agreement of the STATUS fields (O57), the held reset (O59). -/

namespace Sys2Proof.Machine

/-- The meaning of KV looks at KV, KEYLEN, RK, the round constants and KEY only. -/
theorem State.RoundKeysCurrent.congr {s t : State} (h : s.RoundKeysCurrent) (hkv : t.kv = s.kv)
    (hkeylen : t.keylen = s.keylen) (hrk : t.rk = s.rk) (hcfg : t.cfg = s.cfg) (hkey : t.key = s.key) :
    t.RoundKeysCurrent := by
  unfold State.RoundKeysCurrent
  rw [hkv, hkeylen, hrk, hcfg, hkey]
  exact h

/-- With KV = 0 nothing is claimed of RK. -/
theorem State.roundKeysCurrent_of_kv_false {s : State} (h : s.kv = false) : s.RoundKeysCurrent :=
  fun hkv => absurd (h.symm.trans hkv) Bool.false_ne_true

/-- The key-schedule step makes RK current, where the declared length is 8 (R29, R30). -/
theorem State.roundKeysCurrent_expandKey {s : State} (hk : s.keylen = 8#8) : s.expandKey.RoundKeysCurrent :=
  fun _ => ⟨hk, rfl⟩

/-- A completion computes RK afresh, or leaves RK and KV as they were. -/
theorem State.RoundKeysCurrent.completed {s t : State} (h : s.RoundKeysCurrent) (hc : Completed s t) :
    t.RoundKeysCurrent := by
  cases hc with
  | nothing | failed | failedOutput | layered | delivered => exact h.congr rfl rfl rfl rfl rfl
  | failedPadding hk => exact (State.roundKeysCurrent_expandKey hk).congr rfl rfl rfl rfl rfl
  | expanded hk => exact (State.roundKeysCurrent_expandKey hk).congr rfl rfl rfl rfl rfl
  | ciphered d hd hk => exact (State.roundKeysCurrent_expandKey hk).congr rfl rfl rfl rfl rfl
  | blocked b hk => exact (State.roundKeysCurrent_expandKey hk).congr rfl rfl rfl rfl rfl

/-- A HOST write to KEYLEN or KEY clears KV; no other write touches what KV speaks of (R29). -/
theorem State.RoundKeysCurrent.writeLoc {s : State} (h : s.RoundKeysCurrent) (l : Loc) (v : Word) :
    (s.writeLoc l v).RoundKeysCurrent := by
  cases l with
  | keylen | key => exact State.roundKeysCurrent_of_kv_false rfl
  | cmd =>
    show (s.issue v).RoundKeysCurrent
    unfold State.issue
    split <;> exact h.congr rfl rfl rfl rfl rfl
  | id | olen | rk | obuf => exact h
  | status | irqen | state | ibuf => exact h.congr rfl rfl rfl rfl rfl

theorem stepClosed_roundKeysCurrent : StepClosed State.RoundKeysCurrent where
  pending _ _ h := h.congr rfl rfl rfl rfl rfl
  answered _ _ _ h := h.congr rfl rfl rfl rfl rfl
  completed _ _ _ hc h := h.completed hc
  writeLoc _ _ _ l v _ _ h := h.writeLoc l v
  afterReset _ _ := State.roundKeysCurrent_of_kv_false rfl
  released _ h := h.congr rfl rfl rfl rfl rfl

/-- Settles O58: whatever sets KV has just computed RK, and whatever changes KEY or KEYLEN clears KV. -/
theorem stepKeepsRoundKeysCurrent : Obligations.StepKeepsRoundKeysCurrent := by
  unfold Obligations.StepKeepsRoundKeysCurrent
  exact fun s t hs h => stepClosed_roundKeysCurrent.step hs h

/-- The agreement of the STATUS fields looks at BUSY, DONE, ERR and ERRCODE only. -/
theorem State.StatusConsistent.congr {s t : State} (h : s.StatusConsistent) (hbusy : t.busy = s.busy)
    (hdone : t.done = s.done) (herr : t.err = s.err) (herrcode : t.errcode = s.errcode) :
    t.StatusConsistent := by
  unfold State.StatusConsistent
  rw [hbusy, hdone, herr, herrcode]
  exact h

/-- An idle engine needs only ERR to say whether ERRCODE is not 0. -/
theorem State.statusConsistent_of_idle {s : State} (hbusy : s.busy = false)
    (herr : s.err = decide (s.errcode ≠ .noError)) : s.StatusConsistent := by
  refine ⟨?_, herr, ?_⟩ <;> simp [hbusy]

/-- Acceptance clears DONE, ERR and ERRCODE together (R200). -/
theorem State.statusConsistent_accept (v : Word) (s : State) : (s.accept v).StatusConsistent := by
  refine ⟨?_, ?_, fun _ => rfl⟩ <;> simp

/-- Clearing DONE or OVR breaks no agreement (R55). -/
theorem State.StatusConsistent.clearStatus {s : State} (h : s.StatusConsistent) (v : Word) :
    (s.clearStatus v).StatusConsistent := by
  obtain ⟨hbusyDone, herr, hcode⟩ := h
  refine ⟨?_, herr, hcode⟩
  rintro ⟨hbusy, hdone⟩
  exact hbusyDone ⟨hbusy, Bool.and_elim_left hdone⟩

/-- Every form of completion sets BUSY, DONE, ERR and ERRCODE as R205 says. -/
theorem Completed.status {s t : State} (h : Completed s t) :
    t.busy = false ∧ t.done = true ∧ t.err = decide (t.errcode ≠ .noError) := by
  cases h <;> exact ⟨rfl, rfl, rfl⟩

theorem State.StatusConsistent.writeLoc {s : State} (h : s.StatusConsistent) (l : Loc) (v : Word) :
    (s.writeLoc l v).StatusConsistent := by
  cases l with
  | cmd =>
    show (s.issue v).StatusConsistent
    unfold State.issue
    split
    · exact h.congr rfl rfl rfl rfl
    · exact State.statusConsistent_accept v s
  | status => exact h.clearStatus v
  | id | olen | rk | obuf => exact h
  | irqen | keylen | key | state | ibuf => exact h.congr rfl rfl rfl rfl

theorem stepClosed_statusConsistent : StepClosed State.StatusConsistent where
  pending _ _ h := h.congr rfl rfl rfl rfl
  answered _ _ _ h := h.congr rfl rfl rfl rfl
  completed _ _ _ hc h := by
    obtain ⟨hbusy, -, herr⟩ := hc.status
    exact State.statusConsistent_of_idle hbusy herr
  writeLoc _ _ _ l v _ _ h := h.writeLoc l v
  afterReset _ _ := State.statusConsistent_of_idle rfl rfl
  released _ h := h.congr rfl rfl rfl rfl

/-- Settles O57: a completion and an acceptance each set all four fields, and a STATUS write can only clear DONE. -/
theorem stepKeepsStatusConsistent : Obligations.StepKeepsStatusConsistent := by
  unfold Obligations.StepKeepsStatusConsistent
  exact fun s t hs h => stepClosed_statusConsistent.step hs h

/-- With the reset input released nothing is claimed. -/
theorem State.resetHeld_of_released {s : State} (h : s.rst = false) : s.ResetHeld :=
  fun hrst => absurd (h.symm.trans hrst) Bool.false_ne_true

/-- A HOST write leaves the reset input as it is. -/
@[simp] theorem State.writeLoc_rst (s : State) (l : Loc) (v : Word) : (s.writeLoc l v).rst = s.rst := by
  cases l with
  | cmd =>
    show (s.issue v).rst = s.rst
    unfold State.issue
    split <;> rfl
  | _ => rfl

/-- Under reset no command is in flight, so no completion is possible (R260). -/
theorem State.ResetHeld.not_busy {s : State} (h : s.ResetHeld) (hrst : s.rst = true) : s.busy = false := by
  rw [h hrst]; rfl

/-- A completion leaves the reset input as it is. -/
theorem Completed.rst {s t : State} (h : Completed s t) : t.rst = s.rst := by
  cases h <;> rfl

theorem stepClosed_resetHeld : StepClosed State.ResetHeld where
  pending _ l h hrst := congrArg (fun u : State => { u with pending := l }) (h hrst)
  answered _ n r h hrst := congrArg (fun u : State => { u with draws := n, reply := r }) (h hrst)
  completed _ _ hbusy hc h hrst := by
    have hidle := h.not_busy (hc.rst.symm.trans hrst)
    rw [hbusy] at hidle
    cases hidle
  writeLoc _ _ _ _ _ hrst _ _ := State.resetHeld_of_released (by rw [State.writeLoc_rst, hrst])
  afterReset _ _ _ := rfl
  released _ _ := State.resetHeld_of_released rfl

/-- Settles O59: under reset the engine is idle and no access is performed, so only the model's own fields move. -/
theorem stepKeepsResetHeld : Obligations.StepKeepsResetHeld := by
  unfold Obligations.StepKeepsResetHeld
  exact fun s t hs h => stepClosed_resetHeld.step hs h

/-- Settles O55: empty buffers, an idle engine, KV = 0 and a released reset input. -/
theorem invariantsHoldAtReset : Obligations.InvariantsHoldAtReset := by
  unfold Obligations.InvariantsHoldAtReset
  exact ⟨State.buffersWellFormed_of_empty rfl (by decide) rfl, State.statusConsistent_of_idle rfl rfl,
    State.roundKeysCurrent_of_kv_false rfl, State.resetHeld_of_released rfl⟩

end Sys2Proof.Machine
end

section
/-! Proofs: the layers and rounds undo each other, and the source's keyed functions on the bytes of KEY. -/

namespace Sys2Proof.Machine

theorem invSbox_sbox (x : Nibble) : invSbox (sbox x) = x := by
  revert x; decide

/-- The two nibbles of a byte, put together again. -/
theorem nibbles_append (x : Byte) : x.extractLsb' 4 4 ++ x.extractLsb' 0 4 = x := by
  rw [BitVec.extractLsb'_append_extractLsb'_eq_extractLsb' (by omega)]
  exact BitVec.extractLsb'_eq_self

theorem mapNibbles_invSbox_sbox (x : Byte) : mapNibbles invSbox (mapNibbles sbox x) = x := by
  unfold mapNibbles
  rw [BitVec.extractLsb'_append_eq_left, BitVec.extractLsb'_append_eq_right, invSbox_sbox, invSbox_sbox,
    nibbles_append]

/-- The inverse substitution layer undoes the substitution layer (R108). -/
theorem isub_sub (b : Block) : isub (sub b) = b := by
  refine eq_of_blockByte_eq fun j hj => ?_
  rw [isub, blockByte_mapBytes _ _ hj, sub, blockByte_mapBytes _ _ hj, mapNibbles_invSbox_sbox]

/-- A block put together bit by bit, each bit at a position of its own, has at each such position the bit put
there. -/
theorem blockBit_scatter {pos : Nat → Nat} (hpos : ∀ i < 128, pos i < 128)
    (hinj : ∀ i < 128, ∀ j < 128, pos i = pos j → i = j) (v : Nat → Bool) {k : Nat} (hk : k < 128) :
    blockBit ((List.range 128).foldl (fun out i => out ||| bitBlock (pos i) (v i)) 0#128) (pos k) = v k := by
  have hzero : blockBit 0#128 (pos k) = false := by simp [blockBit]
  rw [blockBit_foldl_or, hzero, Bool.false_or, Bool.eq_iff_iff, List.any_eq_true]
  constructor
  · rintro ⟨i, hi, hbit⟩
    have hi := List.mem_range.mp hi
    rw [blockBit_bitBlock (hpos i hi) (hpos k hk), Bool.and_eq_true, decide_eq_true_eq] at hbit
    obtain ⟨hv, hsame⟩ := hbit
    rwa [hinj k hk i hi hsame]
  · intro hv
    refine ⟨k, List.mem_range.mpr hk, ?_⟩
    rw [blockBit_bitBlock (hpos k hk) (hpos k hk), hv, Bool.true_and]
    exact decide_eq_true rfl

/-- Where a bit goes under the permutation layer (R106). -/
theorem blockBit_perm (b : Block) {i : Nat} (hi : i < 128) : blockBit (perm b) (permTab i) = blockBit b i :=
  blockBit_scatter (fun _ h => permTab_lt h) (fun _ hi _ hj h => permTab_inj hi hj h) (blockBit b) hi

/-- Which bit a position takes under the inverse permutation layer (R107). -/
theorem blockBit_iperm (b : Block) {i : Nat} (hi : i < 128) : blockBit (iperm b) i = blockBit b (permTab i) :=
  blockBit_scatter (pos := id) (fun _ h => h) (fun _ _ _ _ h => h) (fun i => blockBit b (permTab i)) hi

/-- The inverse permutation layer undoes the permutation layer (R108). -/
theorem iperm_perm (b : Block) : iperm (perm b) = b :=
  eq_of_blockBit_eq fun i hi => by rw [blockBit_iperm _ hi, blockBit_perm _ hi]

/-- The inverse round undoes the round under the same round key (R142). -/
theorem inverseRound_forwardRound (s rk : Block) : inverseRound (forwardRound s rk) rk = s := by
  rw [inverseRound, forwardRound, iperm_perm, isub_sub, BitVec.xor_assoc, BitVec.xor_self, BitVec.xor_zero]

/-- Block decryption undoes block encryption under the same round keys (R150). -/
theorem decryptBlockRK_encryptBlockRK (b : Block) (rk : RoundKeys) :
    decryptBlockRK (encryptBlockRK b rk) rk = b := by
  simp only [decryptBlockRK, encryptBlockRK, List.foldl_cons, List.foldl_nil]
  rw [BitVec.xor_assoc, BitVec.xor_self, BitVec.xor_zero]
  simp only [inverseRound_forwardRound]

@[simp] theorem expandBytes_be64 (rc : RoundKeys) (k : Key) : expandBytes rc (be64 k) = .ok (expand rc k) := by
  simp [expandBytes]

theorem encryptBlock_be64 (rc : RoundKeys) (k : Key) {d : List Byte} (hd : d.length = 16) :
    encryptBlock rc d (be64 k) = .ok (blockBytes (encryptBlockRK (blockOfBytes d) (expand rc k))) := by
  simp [encryptBlock, hd]

theorem decryptBlock_be64 (rc : RoundKeys) (k : Key) {d : List Byte} (hd : d.length = 16) :
    decryptBlock rc d (be64 k) = .ok (blockBytes (decryptBlockRK (blockOfBytes d) (expand rc k))) := by
  simp [decryptBlock, hd]

theorem encryptMessage_be64 (rc : RoundKeys) (k : Key) (d : List Byte) :
    encryptMessage rc d (be64 k) = .ok (encryptMessageRK d (expand rc k)) := by
  simp [encryptMessage]

theorem decryptMessage_be64 (rc : RoundKeys) (k : Key) {d : List Byte} (hd : d.length % 16 = 0) :
    decryptMessage rc d (be64 k) = decryptMessageRK d (expand rc k) := by
  simp [decryptMessage, hd]

end Sys2Proof.Machine
end

section
/-! Proofs: padding (R170-R173). -/

namespace Sys2Proof.Machine

/-- Padding fills up to the next multiple of 16 (R171). -/
theorem add_padCount (n : Nat) : n + padCount n = 16 * (n / 16 + 1) := by
  unfold padCount; omega

/-- Padded data fits a capacity of whole blocks exactly when the data is below it (R187). -/
theorem add_padCount_le_iff {n size : Nat} (h : size % 16 = 0) : n + padCount n ≤ size ↔ n < size := by
  rw [add_padCount]; omega

/-- The last byte of padded data is the number of pad bytes. -/
theorem pad_getLastD (d : List Byte) : (pad d).getLastD 0#8 = BitVec.ofNat 8 (padCount d.length) := by
  obtain ⟨hpos, -⟩ := padCount_pos d.length
  have hsome : (List.replicate (padCount d.length) (BitVec.ofNat 8 (padCount d.length))).getLast?
      = some (BitVec.ofNat 8 (padCount d.length)) := by
    rw [List.getLast?_replicate, if_neg (by omega)]
  rw [pad, List.getLastD_eq_getLast?, List.getLast?_append, hsome]
  rfl

/-- `unpad` gives back what was padded (R173). -/
theorem unpad_pad (d : List Byte) : unpad (pad d) = .ok d := by
  obtain ⟨hpos, hle⟩ := padCount_pos d.length
  have hlen := pad_length d
  have hmod := add_padCount_mod d.length
  have hlast : ((pad d).getLastD 0#8).toNat = padCount d.length := by
    rw [pad_getLastD, BitVec.toNat_ofNat, Nat.mod_eq_of_lt (by omega)]
  unfold unpad
  rw [if_neg (by omega)]
  simp only [hlast]
  rw [if_neg (by omega), hlen, Nat.add_sub_cancel]
  simp [pad]

/-- `unpad` accepts padded sequences only (R173). -/
theorem eq_pad_of_unpad {p d : List Byte} (h : unpad p = .ok d) : p = pad d := by
  unfold unpad at h
  split at h
  · cases h
  next hlen =>
    simp only at h
    generalize (p.getLastD 0#8).toNat = n at h
    split at h
    · cases h
    next hn =>
      split at h
      · cases h
      next htail =>
        obtain rfl := Except.ok.inj h
        have htake : (p.take (p.length - n)).length = p.length - n := by simp
        have hcount : padCount (p.length - n) = n := by unfold padCount; omega
        calc p = p.take (p.length - n) ++ p.drop (p.length - n) := (List.take_append_drop ..).symm
          _ = p.take (p.length - n) ++ List.replicate n (BitVec.ofNat 8 n) := by rw [not_not.mp htail]
          _ = pad (p.take (p.length - n)) := by rw [pad, htake, hcount]

/-- What no padding gives is rejected as INVALID_PADDING (R172, R173). -/
theorem unpad_of_ne_pad {d : List Byte} (h : ∀ p, d ≠ pad p) : unpad d = .error .invalidPadding := by
  cases hd : unpad d with
  | ok p => exact absurd (eq_pad_of_unpad hd) (h p)
  | error e => rw [unpad_error hd]

end Sys2Proof.Machine
end

section
/-! Proofs: what each command does once its checks have passed, as equations for `exec`. -/

namespace Sys2Proof.Machine

/-- IBUF beginning with `d` is what a command that reads that many bytes reads (R36). -/
theorem State.input_of_inputIs {s : State} {d : List Byte} {n : Nat} (hlen : d.length = n) (h : s.inputIs d) :
    s.input n = some d := by
  subst hlen
  exact (State.input_eq_some_iff ..).mpr ⟨rfl, h⟩

/-- The memory after a delivery (R37). -/
theorem outputDelivered_deliver (s : State) (d : List Byte) : outputDelivered s.mem (s.deliver d).mem d :=
  fun a => Memory.read_deliver d s.mem a

/-- Delivering the result of one of the source's functions, or failing with its error (R226). -/
def State.deliverResult (s : State) : Except ErrCode (List Byte) → State
  | .error e => s.failOutput e
  | .ok d => (s.deliver d).complete .noError

@[simp] theorem State.deliverResult_ok (s : State) (d : List Byte) :
    s.deliverResult (.ok d) = (s.deliver d).complete .noError := rfl

@[simp] theorem State.deliverResult_error (s : State) (e : ErrCode) :
    s.deliverResult (.error e) = s.failOutput e := rfl

/-- A command on a round key, with KV = 1 and a legal index (R155-R157). -/
theorem State.onRoundKey_of_kv {s : State} {top ridx : BitVec 3} (hkv : s.kv = true) (hi : ridx ≤ top)
    (f : Block → Block → Block) :
    s.onRoundKey top ridx f = (s.setBlock (f s.stateReg (roundKey s.rk ridx.toNat))).complete .noError := by
  unfold State.onRoundKey
  rw [if_neg (BitVec.not_lt.mpr hi), if_neg (by simp [hkv])]

/-- With KV = 1 a command on a round key replaces STATE and keeps what the next such command needs. -/
theorem State.onRoundKey_advances {s : State} {top ridx : BitVec 3} (hkv : s.kv = true) (hi : ridx ≤ top)
    (f : Block → Block → Block) :
    (s.onRoundKey top ridx f).stateReg = f s.stateReg (roundKey s.rk ridx.toNat) ∧
      (s.onRoundKey top ridx f).rk = s.rk ∧ (s.onRoundKey top ridx f).kv = true := by
  rw [State.onRoundKey_of_kv hkv hi]
  exact ⟨rfl, rfl, hkv⟩

/-- ROUND i with valid round keys, as far as a sequence of such commands needs it (R156). -/
theorem exec_round_of_kv {s : State} (hkv : s.kv = true) {i : BitVec 3} (hi : i ≤ 3#3) :
    ∃ t, exec (.round i) s = .next t ∧
      t.stateReg = forwardRound s.stateReg (roundKey s.rk i.toNat) ∧ t.rk = s.rk ∧ t.kv = true :=
  ⟨_, rfl, State.onRoundKey_advances hkv hi forwardRound⟩

/-- IROUND i likewise (R157). -/
theorem exec_iround_of_kv {s : State} (hkv : s.kv = true) {i : BitVec 3} (hi : i ≤ 3#3) :
    ∃ t, exec (.iround i) s = .next t ∧
      t.stateReg = inverseRound s.stateReg (roundKey s.rk i.toNat) ∧ t.rk = s.rk ∧ t.kv = true :=
  ⟨_, rfl, State.onRoundKey_advances hkv hi inverseRound⟩

/-- ADDRK i likewise (R155). -/
theorem exec_addrk_of_kv {s : State} (hkv : s.kv = true) {i : BitVec 3} (hi : i ≤ 4#3) :
    ∃ t, exec (.addrk i) s = .next t ∧
      t.stateReg = s.stateReg ^^^ roundKey s.rk i.toNat ∧ t.rk = s.rk ∧ t.kv = true :=
  ⟨_, rfl, State.onRoundKey_advances hkv hi fun b rk => b ^^^ rk⟩

/-- A block command whose checks pass (R158, R159). -/
theorem State.blockCommand_of_checks {s : State} (hk : s.keylen = 8#8) (f : Block → RoundKeys → Block) :
    s.blockCommand 16#16 f = s.withInput 16 fun d =>
      .next (((s.expandKey.deliver (blockBytes (f (blockOfBytes d) s.expandKey.rk))).setBlock
        (f (blockOfBytes d) s.expandKey.rk)).complete .noError) := by
  unfold State.blockCommand
  rw [if_neg (by decide), if_neg (by simp [hk])]

/-- ENC_MSG whose checks pass (R190). -/
theorem exec_encMsg_of_checks {s : State} {len : BitVec 16}
    (hcap : len.toNat + padCount len.toNat ≤ s.cfg.bufSize) (hk : s.keylen = 8#8) :
    exec (.encMsg len) s = s.withInput len.toNat fun d =>
      .next (s.expandKey.deliverResult (.ok (encryptMessageRK d s.expandKey.rk))) := by
  show execEncMsg len s = _
  unfold execEncMsg
  rw [if_neg (by omega), if_neg (by simp [hk])]
  rfl

/-- DEC_MSG whose checks before the padding's pass (R191). -/
theorem exec_decMsg_of_checks {s : State} {len : BitVec 16} (hlen : len.toNat % 16 = 0)
    (hcap : len.toNat ≤ s.cfg.bufSize) (hk : s.keylen = 8#8) :
    exec (.decMsg len) s = s.withInput len.toNat fun d =>
      .next (s.expandKey.deliverResult (decryptMessageRK d s.expandKey.rk)) := by
  show execDecMsg len s = _
  unfold execDecMsg
  rw [if_neg (by omega), if_neg (by omega), if_neg (by simp [hk])]
  refine congrArg (s.withInput len.toNat) (funext fun d => ?_)
  cases decryptMessageRK d s.expandKey.rk <;> rfl

/-- PAD whose check passes (R192). -/
theorem exec_pad_of_checks {s : State} {len : BitVec 16}
    (hcap : len.toNat + padCount len.toNat ≤ s.cfg.bufSize) :
    exec (.pad len) s = s.withInput len.toNat fun d => .next (s.deliverResult (.ok (pad d))) := by
  show execPad len s = _
  unfold execPad
  rw [if_neg (by omega)]
  rfl

/-- UNPAD whose checks before the padding's pass (R193). -/
theorem exec_unpad_of_checks {s : State} {len : BitVec 16} (hpos : len.toNat ≠ 0) (hlen : len.toNat % 16 = 0)
    (hcap : len.toNat ≤ s.cfg.bufSize) :
    exec (.unpad len) s = s.withInput len.toNat fun d => .next (s.deliverResult (unpad d)) := by
  show execUnpad len s = _
  unfold execUnpad
  rw [if_neg (by omega), if_neg (by omega)]
  refine congrArg (s.withInput len.toNat) (funext fun d => ?_)
  cases unpad d <;> rfl

/-- PAD above the capacity (R192). -/
theorem exec_pad_of_capacity {s : State} {len : BitVec 16}
    (hcap : s.cfg.bufSize < len.toNat + padCount len.toNat) :
    exec (.pad len) s = .next (s.failOutput .capacity) := by
  show execPad len s = _
  unfold execPad
  rw [if_pos hcap]

/-- UNPAD of an empty or misaligned length (R193). -/
theorem exec_unpad_of_badLength {s : State} {len : BitVec 16} (h : len.toNat = 0 ∨ len.toNat % 16 ≠ 0) :
    exec (.unpad len) s = .next (s.failOutput .invalidPadding) := by
  show execUnpad len s = _
  unfold execUnpad
  rw [if_pos h]

/-- UNPAD above the capacity (R193). -/
theorem exec_unpad_of_capacity {s : State} {len : BitVec 16} (hlen : len.toNat % 16 = 0)
    (hcap : s.cfg.bufSize < len.toNat) : exec (.unpad len) s = .next (s.failOutput .capacity) := by
  show execUnpad len s = _
  unfold execUnpad
  rw [if_neg (by omega), if_pos hcap]

/-- The length of an output that fits OBUF is the number OLEN holds (R32). -/
theorem toNat_olen_of_le {c : Config} (hcfg : c.wf = true) {n : Nat} (hn : n ≤ c.bufSize) :
    (BitVec.ofNat 16 n).toNat = n := by
  obtain ⟨-, -, -, hsize⟩ := (Config.wf_iff c).mp hcfg
  rw [BitVec.toNat_ofNat, Nat.mod_eq_of_lt (by omega)]

end Sys2Proof.Machine
end

section
/-! Proofs: the round commands in sequence (O28) and the block commands (O29, O30). -/

namespace Sys2Proof.Machine

/-- ROUND 0, 1, 2, 3 and ADDRK 4 put the block encryption of STATE into STATE (R144, R156). -/
theorem exec_rounds_encrypt {s : State} (hkv : s.kv = true) :
    ∃ t₁ t₂ t₃ t₄ t₅, exec (.round 0#3) s = .next t₁ ∧ exec (.round 1#3) t₁ = .next t₂ ∧
      exec (.round 2#3) t₂ = .next t₃ ∧ exec (.round 3#3) t₃ = .next t₄ ∧ exec (.addrk 4#3) t₄ = .next t₅ ∧
      t₅.stateReg = encryptBlockRK s.stateReg s.rk ∧ t₅.rk = s.rk ∧ t₅.kv = true := by
  obtain ⟨t₁, h₁, hb₁, hrk₁, hkv₁⟩ := exec_round_of_kv hkv (i := 0#3) (by decide)
  obtain ⟨t₂, h₂, hb₂, hrk₂, hkv₂⟩ := exec_round_of_kv hkv₁ (i := 1#3) (by decide)
  obtain ⟨t₃, h₃, hb₃, hrk₃, hkv₃⟩ := exec_round_of_kv hkv₂ (i := 2#3) (by decide)
  obtain ⟨t₄, h₄, hb₄, hrk₄, hkv₄⟩ := exec_round_of_kv hkv₃ (i := 3#3) (by decide)
  obtain ⟨t₅, h₅, hb₅, hrk₅, hkv₅⟩ := exec_addrk_of_kv hkv₄ (i := 4#3) (by decide)
  refine ⟨t₁, t₂, t₃, t₄, t₅, h₁, h₂, h₃, h₄, h₅, ?_, ?_, hkv₅⟩
  · rw [hb₅, hb₄, hb₃, hb₂, hb₁, hrk₄, hrk₃, hrk₂, hrk₁]
    simp [encryptBlockRK]
  · rw [hrk₅, hrk₄, hrk₃, hrk₂, hrk₁]

/-- ADDRK 4 and IROUND 3, 2, 1, 0 put the block decryption of STATE into STATE (R145, R157). -/
theorem exec_rounds_decrypt {s : State} (hkv : s.kv = true) :
    ∃ u₁ u₂ u₃ u₄ u₅, exec (.addrk 4#3) s = .next u₁ ∧ exec (.iround 3#3) u₁ = .next u₂ ∧
      exec (.iround 2#3) u₂ = .next u₃ ∧ exec (.iround 1#3) u₃ = .next u₄ ∧ exec (.iround 0#3) u₄ = .next u₅ ∧
      u₅.stateReg = decryptBlockRK s.stateReg s.rk := by
  obtain ⟨u₁, h₁, hb₁, hrk₁, hkv₁⟩ := exec_addrk_of_kv hkv (i := 4#3) (by decide)
  obtain ⟨u₂, h₂, hb₂, hrk₂, hkv₂⟩ := exec_iround_of_kv hkv₁ (i := 3#3) (by decide)
  obtain ⟨u₃, h₃, hb₃, hrk₃, hkv₃⟩ := exec_iround_of_kv hkv₂ (i := 2#3) (by decide)
  obtain ⟨u₄, h₄, hb₄, hrk₄, hkv₄⟩ := exec_iround_of_kv hkv₃ (i := 1#3) (by decide)
  obtain ⟨u₅, h₅, hb₅, -, -⟩ := exec_iround_of_kv hkv₄ (i := 0#3) (by decide)
  refine ⟨u₁, u₂, u₃, u₄, u₅, h₁, h₂, h₃, h₄, h₅, ?_⟩
  rw [hb₅, hb₄, hb₃, hb₂, hb₁, hrk₄, hrk₃, hrk₂, hrk₁]
  simp [decryptBlockRK]

/-- Settles O28: the two halves compute `encryptBlockRK` and `decryptBlockRK`, which undo each other. -/
theorem roundCommandSequencesAreTheBlockTransforms : Obligations.RoundCommandSequencesAreTheBlockTransforms := by
  unfold Obligations.RoundCommandSequencesAreTheBlockTransforms
  intro s hkv
  obtain ⟨t₁, t₂, t₃, t₄, t₅, h₁, h₂, h₃, h₄, h₅, henc, hrk, hkv₅⟩ := exec_rounds_encrypt hkv
  obtain ⟨u₁, u₂, u₃, u₄, u₅, k₁, k₂, k₃, k₄, k₅, hdec⟩ := exec_rounds_decrypt hkv₅
  refine ⟨t₁, t₂, t₃, t₄, t₅, u₁, u₂, u₃, u₄, u₅, h₁, h₂, h₃, h₄, h₅, henc, hrk, hkv₅, fun hcurrent => ?_,
    k₁, k₂, k₃, k₄, k₅, hdec, ?_⟩
  · obtain ⟨-, hexpand⟩ := hcurrent hkv
    rw [encryptBlock_be64 _ _ (blockBytes_length _), blockOfBytes_blockBytes, ← hexpand, henc]
  · rw [hdec, henc, hrk, decryptBlockRK_encryptBlockRK]

/-- A block command whose checks pass, with its input written: the whole next state (R158, R159). -/
theorem State.blockCommand_of_input {s : State} {d : List Byte} {f : Block → RoundKeys → Block} {c : Block}
    (hk : s.keylen = 8#8) (hd : s.input 16 = some d) (hc : f (blockOfBytes d) (expand s.cfg.rc s.key) = c) :
    s.blockCommand 16#16 f = .next
      { s with
        rk := expand s.cfg.rc s.key, kv := true
        mem := (s.deliver (blockBytes c)).mem, stateReg := c, olen := 16#16
        written := { s.written with state0 := true, state1 := true, state2 := true, state3 := true }
        busy := false, done := true, err := false, errcode := .noError } := by
  rw [State.blockCommand_of_checks hk, State.withInput_of_input hd, State.expandKey_rk, hc]
  simp [State.deliver, State.setBlock, State.complete, State.expandKey]

/-- Settles O29: the source's `encryptBlock` on the bytes of KEY is `encryptBlockRK` under the expanded key. -/
theorem encBlkEncryptsTheInputBlock : Obligations.EncBlkEncryptsTheInputBlock := by
  unfold Obligations.EncBlkEncryptsTheInputBlock
  intro s d hk hlen hin
  exact ⟨_, _, _, expandBytes_be64 .., encryptBlock_be64 _ _ hlen, outputDelivered_deliver s _,
    State.blockCommand_of_input hk (State.input_of_inputIs hlen hin) rfl⟩

/-- Settles O30, as O29 with `decryptBlock`. -/
theorem decBlkDecryptsTheInputBlock : Obligations.DecBlkDecryptsTheInputBlock := by
  unfold Obligations.DecBlkDecryptsTheInputBlock
  intro s d hk hlen hin
  exact ⟨_, _, _, expandBytes_be64 .., decryptBlock_be64 _ _ hlen, outputDelivered_deliver s _,
    State.blockCommand_of_input hk (State.input_of_inputIs hlen hin) rfl⟩

end Sys2Proof.Machine
end

section
/-! Proofs: the message and padding commands (O32, O33, O35, O36). -/

namespace Sys2Proof.Machine

/-- Settles O32: an input below BUFSZ leaves room for its padding, so OLEN is exact. -/
theorem encMsgDeliversTheEncryptedMessage : Obligations.EncMsgDeliversTheEncryptedMessage := by
  unfold Obligations.EncMsgDeliversTheEncryptedMessage
  intro s len d hcfg hlt hk hlen hin
  obtain ⟨-, hmod, -, -⟩ := (Config.wf_iff _).mp hcfg
  have hcap := (add_padCount_le_iff hmod).mpr hlt
  have hclen : (encryptMessageRK d (expand s.cfg.rc s.key)).length = len.toNat + padCount len.toNat := by
    rw [encryptMessageRK_length, hlen]
  have holen := toNat_olen_of_le hcfg (hclen.trans_le hcap)
  refine ⟨_, _, _, _, expandBytes_be64 .., encryptMessage_be64 .., outputDelivered_deliver s _, holen, ?_, ?_⟩
  · rw [holen, hclen, add_padCount]
  · rw [exec_encMsg_of_checks hcap hk, State.withInput_of_input (State.input_of_inputIs hlen hin),
      State.deliverResult_ok]
    rfl

/-- Settles O33: the command's result is that of `decryptMessage`, delivered or failed with. -/
theorem decMsgDeliversTheDecryptedMessage : Obligations.DecMsgDeliversTheDecryptedMessage := by
  unfold Obligations.DecMsgDeliversTheDecryptedMessage
  intro s len d hcfg haligned hcap hk hlen hin
  have hexec : exec (.decMsg len) s
      = .next (s.expandKey.deliverResult (decryptMessageRK d (expand s.cfg.rc s.key))) := by
    rw [exec_decMsg_of_checks haligned hcap hk, State.withInput_of_input (State.input_of_inputIs hlen hin),
      State.expandKey_rk]
  refine ⟨_, expandBytes_be64 .., ?_⟩
  rw [decryptMessage_be64 _ _ (by rw [hlen]; exact haligned), hexec]
  refine ⟨fun p hp => ?_, fun e he => ?_⟩
  · have hplen : p.length ≤ s.cfg.bufSize := by
      have := decryptMessageRK_ok_length hp
      omega
    rw [hp, State.deliverResult_ok]
    exact ⟨_, _, outputDelivered_deliver s p, toNat_olen_of_le hcfg hplen, rfl⟩
  · obtain rfl : e = .invalidPadding := unpad_error he
    rw [he, State.deliverResult_error]
    exact ⟨rfl, _, outputDelivered_deliver s [], rfl⟩

/-- Settles O35: the capacity check splits exactly at BUFSZ (`add_padCount_le_iff`). -/
theorem padCommandDeliversThePaddedInput : Obligations.PadCommandDeliversThePaddedInput := by
  unfold Obligations.PadCommandDeliversThePaddedInput
  intro s len hcfg
  obtain ⟨-, hmod, -, -⟩ := (Config.wf_iff _).mp hcfg
  have hfits := add_padCount_le_iff (n := len.toNat) hmod
  refine ⟨fun d hlt hlen hin => ?_, fun hge => ?_⟩
  · have hcap := hfits.mpr hlt
    refine ⟨_, BitVec.ofNat 16 (pad d).length, ?_, outputDelivered_deliver s (pad d), ?_⟩
    · rw [pad_length, hlen, toNat_olen_of_le hcfg hcap, add_padCount]
    · rw [exec_pad_of_checks hcap, State.withInput_of_input (State.input_of_inputIs hlen hin),
        State.deliverResult_ok]
      rfl
  · refine ⟨_, outputDelivered_deliver s [], ?_⟩
    rw [exec_pad_of_capacity (by omega)]
    rfl

/-- Settles O36: the success case turns on `unpad_pad`, the last error case on `unpad_of_ne_pad`. -/
theorem unpadCommandStripsThePadding : Obligations.UnpadCommandStripsThePadding := by
  unfold Obligations.UnpadCommandStripsThePadding
  intro s len hcfg
  refine ⟨fun d p hcap hlen hin hd => ?_, fun e he => ?_⟩
  · have hplen : len.toNat = p.length + padCount p.length := by rw [← hlen, hd, pad_length]
    obtain ⟨hpos, -⟩ := padCount_pos p.length
    have haligned := add_padCount_mod p.length
    refine ⟨_, BitVec.ofNat 16 p.length, toNat_olen_of_le hcfg (by omega), outputDelivered_deliver s p, ?_⟩
    rw [exec_unpad_of_checks (by omega) (by omega) hcap,
      State.withInput_of_input (State.input_of_inputIs hlen hin), hd, unpad_pad,
      State.deliverResult_ok]
    rfl
  · refine ⟨_, outputDelivered_deliver s [], ?_⟩
    rcases he with ⟨hlen, rfl⟩ | ⟨-, haligned, hcap, rfl⟩ | ⟨hpos, haligned, hcap, rfl, d, hlen, hin, hbad⟩
    · rw [exec_unpad_of_badLength hlen]
      rfl
    · rw [exec_unpad_of_capacity haligned hcap]
      rfl
    · rw [exec_unpad_of_checks hpos haligned hcap,
        State.withInput_of_input (State.input_of_inputIs hlen hin), unpad_of_ne_pad hbad,
        State.deliverResult_error]
      rfl

end Sys2Proof.Machine
end

section
/-! Proofs: when a command stops (O38, O39). -/

namespace Sys2Proof.Machine

/-- Settles O38: with its checks passed each command is `withInput`, which an unwritten byte stops. -/
theorem unwrittenInputFaults : Obligations.UnwrittenInputFaults := by
  unfold Obligations.UnwrittenInputFaults
  intro s k hread
  have hnone {n : Nat} (hk : k < n) : s.input n = none := (State.input_eq_none_iff ..).mpr ⟨k, hk, hread⟩
  refine ⟨fun hk16 hkey => ⟨?_, ?_⟩, fun len hk hcfg => ?_⟩
  · exact (State.blockCommand_of_checks hkey _).trans (State.withInput_of_unwritten (hnone hk16) _)
  · exact (State.blockCommand_of_checks hkey _).trans (State.withInput_of_unwritten (hnone hk16) _)
  · obtain ⟨-, hmod, -, -⟩ := (Config.wf_iff _).mp hcfg
    refine ⟨fun hlt hkey => ?_, fun hle haligned hkey => ?_, fun hlt => ?_, fun hle haligned => ?_⟩
    · rw [exec_encMsg_of_checks ((add_padCount_le_iff hmod).mpr hlt) hkey,
        State.withInput_of_unwritten (hnone hk)]
    · rw [exec_decMsg_of_checks haligned hle hkey, State.withInput_of_unwritten (hnone hk)]
    · rw [exec_pad_of_checks ((add_padCount_le_iff hmod).mpr hlt), State.withInput_of_unwritten (hnone hk)]
    · rw [exec_unpad_of_checks (by omega) haligned hle, State.withInput_of_unwritten (hnone hk)]

/-- A command either completes, or stops on a byte of `IBUF[0 .. n)` that holds no value (R43). -/
def CompletesOrLacksInput (s : State) (n : Nat) (o : Host.Outcome State Fault Refusal) : Prop :=
  (∃ t, o = .next t) ∨ (o = .fault .unwrittenInput ∧ ∃ k < n, Memory.read s.mem (ibufBase + k) = none)

theorem CompletesOrLacksInput.next (s : State) (n : Nat) (t : State) : CompletesOrLacksInput s n (.next t) :=
  .inl ⟨t, rfl⟩

theorem CompletesOrLacksInput.ite {s : State} {n : Nat} {p : Prop} [Decidable p]
    {o o' : Host.Outcome State Fault Refusal} (h : CompletesOrLacksInput s n o)
    (h' : CompletesOrLacksInput s n o') : CompletesOrLacksInput s n (if p then o else o') := by
  split
  · exact h
  · exact h'

/-- Reading IBUF is where a command can stop: what follows it always completes. -/
theorem CompletesOrLacksInput.withInput {s : State} {n : Nat} {go : List Byte → Host.Outcome State Fault Refusal}
    (hgo : ∀ d, ∃ t, go d = .next t) : CompletesOrLacksInput s n (s.withInput n go) := by
  cases hin : s.input n with
  | none => exact .inr ⟨State.withInput_of_unwritten hin go, (State.input_eq_none_iff ..).mp hin⟩
  | some d => exact .inl (by rw [State.withInput_of_input hin]; exact hgo d)

theorem State.blockCommand_completesOrLacksInput (s : State) (len : BitVec 16) (f : Block → RoundKeys → Block) :
    CompletesOrLacksInput s 16 (s.blockCommand len f) :=
  .ite (.next ..) (.ite (.next ..) (.withInput fun _ => ⟨_, rfl⟩))

theorem exec_completesOrLacksInput (i : Instr) (s : State) :
    CompletesOrLacksInput s (inputLength i) (exec i s) := by
  cases i with
  | nop | sub | isub | perm | iperm | addrk | round | iround => exact .next ..
  | expand => exact .ite (.next ..) (.next ..)
  | encBlk len => exact s.blockCommand_completesOrLacksInput len _
  | decBlk len => exact s.blockCommand_completesOrLacksInput len _
  | encMsg len => exact .ite (.next ..) (.ite (.next ..) (.withInput fun _ => ⟨_, rfl⟩))
  | decMsg len =>
    refine .ite (.next ..) (.ite (.next ..) (.ite (.next ..) (.withInput fun d => ?_)))
    cases decryptMessageRK d s.expandKey.rk <;> exact ⟨_, rfl⟩
  | pad len => exact .ite (.next ..) (.withInput fun _ => ⟨_, rfl⟩)
  | unpad len =>
    refine .ite (.next ..) (.ite (.next ..) (.withInput fun d => ?_))
    cases unpad d <;> exact ⟨_, rfl⟩

/-- Settles O39, from the shape of every command: checks that complete, then `withInput`, then a completion. -/
theorem commandsStopOnlyOnUnwrittenInput : Obligations.CommandsStopOnlyOnUnwrittenInput := by
  unfold Obligations.CommandsStopOnlyOnUnwrittenInput
  exact exec_completesOrLacksInput

end Sys2Proof.Machine
end

section
/-! Proofs: what every completion sets and what it leaves (O40, O42). -/

namespace Sys2Proof.Machine

theorem ErrCode.code_eq_zero_iff (c : ErrCode) : c.code = 0#4 ↔ c = .noError := by
  cases c <;> decide

/-- Settles O40: ERR is by construction `ERRCODE ≠ noError`, and only `noError` has code 0. -/
theorem everyCompletionSetsTheStatus : Obligations.EveryCompletionSetsTheStatus := by
  unfold Obligations.EveryCompletionSetsTheStatus
  intro i s t h
  obtain ⟨hbusy, hdone, herr⟩ := (exec_completed h).status
  refine ⟨hbusy, hdone, ?_⟩
  rw [herr, decide_eq_true_iff, ne_eq, ne_eq, ErrCode.code_eq_zero_iff]

/-- What no completion writes (R210). -/
theorem Completed.frame {s t : State} (h : Completed s t) :
    t.key = s.key ∧ t.keylen = s.keylen ∧ t.ie = s.ie ∧ t.ovr = s.ovr ∧ t.cfg = s.cfg ∧ t.cmdl = s.cmdl ∧
      t.pending = s.pending ∧ t.reply = s.reply ∧ t.draws = s.draws ∧
      t.written.key0 = s.written.key0 ∧ t.written.key1 = s.written.key1 := by
  cases h <;> exact ⟨rfl, rfl, rfl, rfl, rfl, rfl, rfl, rfl, rfl, rfl, rfl⟩

/-- An output that fits the OBUF window is delivered inside it (R37). -/
theorem State.read_deliver_outside (s : State) {d : List Byte} (hd : d.length ≤ 4096) {a : Nat}
    (ha : a < obufBase ∨ obufEnd ≤ a) : Memory.read (s.deliver d).mem a = Memory.read s.mem a := by
  simp only [obufBase, obufEnd] at ha
  rw [State.deliver_mem, Memory.read_deliver, if_neg (by simp only [obufBase]; omega),
    if_neg (by simp only [obufBase, obufEnd]; omega)]

/-- No completion writes a byte outside the OBUF window (R36, R210). -/
theorem Completed.read_outside {s t : State} (h : Completed s t) (hcfg : s.cfg.wf = true) {a : Nat}
    (ha : a < obufBase ∨ obufEnd ≤ a) : Memory.read t.mem a = Memory.read s.mem a := by
  obtain ⟨-, -, -, hsize⟩ := (Config.wf_iff _).mp hcfg
  cases h with
  | nothing | failed | expanded | layered => rfl
  | failedOutput | failedPadding => exact s.read_deliver_outside (d := []) (Nat.zero_le _) ha
  | delivered d hd => exact s.read_deliver_outside (hd.trans hsize) ha
  | ciphered d hd hk => exact s.read_deliver_outside (hd.trans hsize) ha
  | blocked b hk =>
    have hfits : (blockBytes b).length ≤ 4096 := by rw [blockBytes_length]; decide
    rw [State.complete_mem, State.setBlock_mem]
    exact s.expandKey.read_deliver_outside hfits ha

/-- A command on a round key leaves the buffers, OLEN, RK and KV as they are. -/
theorem State.onRoundKey_frame (s : State) (top ridx : BitVec 3) (f : Block → Block → Block) :
    (s.onRoundKey top ridx f).olen = s.olen ∧ (s.onRoundKey top ridx f).mem = s.mem ∧
      (s.onRoundKey top ridx f).rk = s.rk ∧ (s.onRoundKey top ridx f).kv = s.kv := by
  rcases State.onRoundKey_cases s top ridx f with ⟨-, h⟩ | ⟨-, -, h⟩ | ⟨-, -, h⟩ <;> rw [h] <;>
    exact ⟨rfl, rfl, rfl, rfl⟩

/-- A command that is not OLEN-writing leaves OLEN and the buffers as they are (R186, R210). -/
theorem exec_keeps_output {i : Instr} {s t : State} (h : exec i s = .next t) (hi : writesOlen i = false) :
    t.olen = s.olen ∧ t.mem = s.mem := by
  cases i with
  | encBlk | decBlk | encMsg | decMsg | pad | unpad => cases hi
  | nop | sub | isub | perm | iperm => obtain rfl := Host.Outcome.next.inj h; exact ⟨rfl, rfl⟩
  | expand => rcases execExpand_next h with ⟨-, rfl⟩ | ⟨-, rfl⟩ <;> exact ⟨rfl, rfl⟩
  | addrk ridx | round ridx | iround ridx =>
    obtain rfl := Host.Outcome.next.inj h
    obtain ⟨holen, hmem, -, -⟩ := s.onRoundKey_frame _ ridx _
    exact ⟨holen, hmem⟩

/-- NOP, EXPAND and the message and padding commands leave STATE as it is (R186, R210). -/
theorem exec_keeps_stateReg {i : Instr} {s t : State} (h : exec i s = .next t)
    (hi : i ∈ [.nop, .expand] ∨ ∃ len, i = .encMsg len ∨ i = .decMsg len ∨ i = .pad len ∨ i = .unpad len) :
    t.stateReg = s.stateReg ∧ t.written = s.written := by
  simp only [List.mem_cons, List.not_mem_nil, or_false] at hi
  rcases hi with (rfl | rfl) | ⟨len, rfl | rfl | rfl | rfl⟩
  · obtain rfl := Host.Outcome.next.inj h
    exact ⟨rfl, rfl⟩
  · rcases execExpand_next h with ⟨-, rfl⟩ | ⟨-, rfl⟩ <;> exact ⟨rfl, rfl⟩
  · rcases execEncMsg_next h with ⟨-, rfl⟩ | ⟨-, -, rfl⟩ | ⟨-, -, d, -, rfl⟩ <;> exact ⟨rfl, rfl⟩
  · rcases execDecMsg_next h with
      ⟨-, rfl⟩ | ⟨-, -, rfl⟩ | ⟨-, -, -, rfl⟩ | ⟨-, -, -, d, -, ⟨-, rfl⟩ | ⟨r, -, rfl⟩⟩ <;> exact ⟨rfl, rfl⟩
  · rcases execPad_next h with ⟨-, rfl⟩ | ⟨-, d, -, rfl⟩ <;> exact ⟨rfl, rfl⟩
  · rcases execUnpad_next h with
      ⟨-, rfl⟩ | ⟨-, -, -, rfl⟩ | ⟨-, -, -, d, -, ⟨-, rfl⟩ | ⟨r, -, rfl⟩⟩ <;> exact ⟨rfl, rfl⟩

/-- NOP, PAD, UNPAD and the layer and round commands leave RK and KV as they are (R210). -/
theorem exec_keeps_roundKeys {i : Instr} {s t : State} (h : exec i s = .next t)
    (hi : i ∈ [.nop, .sub, .isub, .perm, .iperm] ∨ (∃ len, i = .pad len ∨ i = .unpad len) ∨
      ∃ k, i = .addrk k ∨ i = .round k ∨ i = .iround k) : t.rk = s.rk ∧ t.kv = s.kv := by
  rcases hi with hplain | ⟨len, rfl | rfl⟩ | ⟨k, hround⟩
  · simp only [List.mem_cons, List.not_mem_nil, or_false] at hplain
    rcases hplain with rfl | rfl | rfl | rfl | rfl <;>
      (obtain rfl := Host.Outcome.next.inj h; exact ⟨rfl, rfl⟩)
  · rcases execPad_next h with ⟨-, rfl⟩ | ⟨-, d, -, rfl⟩ <;> exact ⟨rfl, rfl⟩
  · rcases execUnpad_next h with
      ⟨-, rfl⟩ | ⟨-, -, -, rfl⟩ | ⟨-, -, -, d, -, ⟨-, rfl⟩ | ⟨r, -, rfl⟩⟩ <;> exact ⟨rfl, rfl⟩
  · rcases hround with rfl | rfl | rfl
    all_goals
      obtain rfl := Host.Outcome.next.inj h
      obtain ⟨-, -, hrk, hkv⟩ := s.onRoundKey_frame _ k _
      exact ⟨hrk, hkv⟩

/-- Settles O42: the frame shared by every completion, and three frames by the kind of command. -/
theorem commandsWriteOnlyTheirWriteSet : Obligations.CommandsWriteOnlyTheirWriteSet := by
  unfold Obligations.CommandsWriteOnlyTheirWriteSet
  intro i s t h
  have hc := exec_completed h
  obtain ⟨hkey, hkeylen, hie, hovr, hcfg, hcmdl, hpending, hreply, hdraws, hkey0, hkey1⟩ := hc.frame
  exact ⟨hkey, hkeylen, hie, hovr, hcfg, hcmdl, hc.rst, hpending, hreply, hdraws, hkey0, hkey1,
    fun a ha hwf => hc.read_outside hwf ha, exec_keeps_output h, exec_keeps_stateReg h, exec_keeps_roundKeys h⟩

end Sys2Proof.Machine
end

section
/-! Proofs: STATUS (O44), lanes and halves of the registers, and the bus's answers. -/

namespace Sys2Proof.Machine

/-- The one-bit fields of STATUS (R24). -/
theorem State.statusWord_flags (s : State) (kv : Bool) :
    (s.statusWord kv).getLsbD 0 = s.busy ∧ (s.statusWord kv).getLsbD 1 = s.done ∧
      (s.statusWord kv).getLsbD 2 = s.err ∧ (s.statusWord kv).getLsbD 3 = s.ovr ∧
      (s.statusWord kv).getLsbD 4 = kv := by
  unfold State.statusWord
  simp only [BitVec.getLsbD_append]
  simp

/-- ERRCODE in STATUS, and the reserved bits on both sides of it (R24). -/
theorem State.statusWord_fields (s : State) (kv : Bool) :
    (s.statusWord kv).extractLsb' 5 3 = 0#3 ∧ (s.statusWord kv).extractLsb' 8 4 = s.errcode.code ∧
      (s.statusWord kv).extractLsb' 12 20 = 0#20 := by
  unfold State.statusWord
  refine ⟨?_, ?_, ?_⟩
  · repeat rw [BitVec.extractLsb'_append_eq_of_le (by omega)]
    exact BitVec.extractLsb'_append_eq_right ..
  · repeat rw [BitVec.extractLsb'_append_eq_of_le (by omega)]
    exact BitVec.extractLsb'_append_eq_right ..
  · repeat rw [BitVec.extractLsb'_append_eq_of_le (by omega)]
    exact BitVec.extractLsb'_eq_self

/-- Settles O44: the fields are the pieces that `statusWord` puts together. -/
theorem statusWordLayout : Obligations.StatusWordLayout := by
  unfold Obligations.StatusWordLayout
  refine ⟨⟨rfl, rfl, rfl, rfl, rfl, rfl, rfl, rfl⟩, fun s kv => ?_⟩
  obtain ⟨hbusy, hdone, herr, hovr, hkv⟩ := s.statusWord_flags kv
  exact ⟨hbusy, hdone, herr, hovr, hkv, s.statusWord_fields kv⟩

/-- Lane `j` of a word made of four lanes (R53). -/
theorem lane_wordOfLanes (b0 b1 b2 b3 : Byte) :
    lane (wordOfLanes b0 b1 b2 b3) 0 = b0 ∧ lane (wordOfLanes b0 b1 b2 b3) 1 = b1 ∧
      lane (wordOfLanes b0 b1 b2 b3) 2 = b2 ∧ lane (wordOfLanes b0 b1 b2 b3) 3 = b3 := by
  unfold lane wordOfLanes
  refine ⟨?_, ?_, ?_, ?_⟩
  · repeat rw [BitVec.extractLsb'_append_eq_of_le (by omega)]
    exact BitVec.extractLsb'_eq_self
  · repeat rw [BitVec.extractLsb'_append_eq_of_le (by omega)]
    exact BitVec.extractLsb'_append_eq_right ..
  · repeat rw [BitVec.extractLsb'_append_eq_of_le (by omega)]
    exact BitVec.extractLsb'_append_eq_right ..
  · exact BitVec.extractLsb'_append_eq_right ..

/-- A buffer byte that holds a value reads in its lane (R53). -/
theorem lane_bufferWord {m : Memory} {a j : Nat} {b : Byte} (free : Word) (hj : j < 4)
    (hb : Memory.read m (a + j) = some b) : lane (bufferWord m a free) j = b := by
  obtain ⟨h0, h1, h2, h3⟩ := lane_wordOfLanes ((Memory.read m a).getD (lane free 0))
    ((Memory.read m (a + 1)).getD (lane free 1)) ((Memory.read m (a + 2)).getD (lane free 2))
    ((Memory.read m (a + 3)).getD (lane free 3))
  unfold bufferWord
  interval_cases j
  · rw [h0, show Memory.read m a = some b from hb, Option.getD_some]
  · rw [h1, hb, Option.getD_some]
  · rw [h2, hb, Option.getD_some]
  · rw [h3, hb, Option.getD_some]

/-- The words of a block after one is replaced (R35). -/
theorem blockWord_setBlockWord (b : Block) (v : Word) (w : Nat) {u : Nat} (hu : u < 4) :
    blockWord (setBlockWord b w v) u = if u = w then v else blockWord b u := by
  simp only [eq_comm (a := u)]
  unfold setBlockWord
  generalize hw0 : (if w = 0 then v else blockWord b 0) = w0
  generalize hw1 : (if w = 1 then v else blockWord b 1) = w1
  generalize hw2 : (if w = 2 then v else blockWord b 2) = w2
  generalize hw3 : (if w = 3 then v else blockWord b 3) = w3
  rw [blockWord]
  interval_cases u
  · rw [hw0]
    repeat rw [BitVec.extractLsb'_append_eq_of_le (by omega)]
    exact BitVec.extractLsb'_eq_self
  · rw [hw1]
    repeat rw [BitVec.extractLsb'_append_eq_of_le (by omega)]
    exact BitVec.extractLsb'_append_eq_right ..
  · rw [hw2]
    repeat rw [BitVec.extractLsb'_append_eq_of_le (by omega)]
    exact BitVec.extractLsb'_append_eq_right ..
  · rw [hw3]
    exact BitVec.extractLsb'_append_eq_right ..

/-- Byte `j` of a block is lane `j % 4` of its word `j / 4` (R53). -/
theorem blockByte_eq_lane (b : Block) {j : Nat} (hj : j < 16) :
    blockByte b j = lane (blockWord b (j / 4)) (j % 4) := by
  refine BitVec.eq_of_getLsbD_eq fun i hi => ?_
  unfold blockByte lane blockWord
  have hword : 24 - 8 * (j % 4) + i < 32 := by omega
  simp only [BitVec.getLsbD_extractLsb', hi, hword, decide_true, Bool.true_and]
  congr 1
  omega

/-- Two words as the halves of one integer. -/
theorem toNat_append_words (a b : Word) : (a ++ b : BitVec 64).toNat = a.toNat * 2 ^ 32 + b.toNat := by
  rw [BitVec.toNat_append, ← Nat.shiftLeft_add_eq_or_of_lt b.isLt, Nat.shiftLeft_eq]

/-- KEY0 replaced: the high half of the key (R34). -/
theorem toNat_setKeyWord_zero (k : Key) (v : Word) :
    (setKeyWord k 0 v).toNat = v.toNat * 2 ^ 32 + k.toNat % 2 ^ 32 := by
  have hlow : (keyWord k 1).toNat = k.toNat % 2 ^ 32 := by simp [keyWord]
  rw [← hlow]
  exact toNat_append_words v (keyWord k 1)

/-- KEY1 replaced: the low half of the key (R34). -/
theorem toNat_setKeyWord_one (k : Key) (v : Word) :
    (setKeyWord k 1 v).toNat = k.toNat / 2 ^ 32 * 2 ^ 32 + v.toNat := by
  have hhigh : (keyWord k 0).toNat = k.toNat / 2 ^ 32 := by
    have := k.isLt
    simp [keyWord, Nat.shiftRight_eq_div_pow]
    omega
  rw [← hhigh]
  exact toNat_append_words (keyWord k 0) v

/-- A word access inside the window selects what R50's map has at the offset. -/
theorem selectLoc_word (c : Config) {off : Nat} (halign : off % 4 = 0) (hlt : off < 0x4000) :
    selectLoc c 32 (c.base + off) = locate c.bufSize off := by
  unfold selectLoc
  rw [if_neg (by omega), if_neg (by decide), Nat.add_sub_cancel_left, if_neg (by omega)]

/-- STATE0..3 in the address map (R50). -/
theorem locate_state (size : Nat) {w : Nat} (hw : w < 4) : locate size (0x030 + 4 * w) = .ok (.state w) := by
  interval_cases w <;> rfl

/-- The RK words in the address map (R50). -/
theorem locate_rk (size : Nat) {i w : Nat} (hi : i < 5) (hw : w < 4) :
    locate size (0x040 + 0x10 * i + 4 * w) = .ok (.rk i w) := by
  interval_cases i <;> interval_cases w <;> rfl

/-- A backed IBUF word in the address map (R50, R58). -/
theorem locate_ibuf {size a : Nat} (ha : a < size) (hsize : size ≤ 4096) :
    locate size (0x1000 + a) = .ok (.ibuf a) := by
  unfold locate
  iterate 12 rw [if_neg (by omega)]
  rw [if_pos (by omega), if_pos (by omega), Nat.add_sub_cancel_left]

/-- A backed OBUF word in the address map (R50, R58). -/
theorem locate_obuf {size a : Nat} (ha : a < size) (hsize : size ≤ 4096) :
    locate size (0x2000 + a) = .ok (.obuf a) := by
  unfold locate
  iterate 13 rw [if_neg (by omega)]
  rw [if_pos (by omega), if_pos (by omega), Nat.add_sub_cancel_left]

/-- R264 asks nothing of an idle engine, nor of an access that reset keeps from being performed. -/
theorem State.inputHazard_eq_false {s : State} (a : Access) (h : s.busy = false ∨ s.rst = true) :
    s.inputHazard a = false := by
  cases a with
  | read => rfl
  | write width addr v =>
    cases hl : selectLoc s.cfg width addr <;> rcases h with h | h <;> simp [State.inputHazard, hl, h]

/-- A HOST access under reset has no effect but its answer (R260). -/
theorem State.hostAccess_rst {s : State} (a : Access) (hrst : s.rst = true) :
    s.hostAccess a = .next { s with reply := .notPerformed } := by
  unfold State.hostAccess
  rw [State.bus_rst a hrst, State.inputHazard_eq_false a (.inr hrst)]
  rfl

/-- A word read at an offset of the map: HOST has the location's value, and nothing of the engine changes (R54). -/
theorem State.hostAccess_read_word {s : State} {off : Nat} {l : Loc} {v : Word} (hrst : s.rst = false)
    (hl : locate s.cfg.bufSize off = .ok l) (halign : off % 4 = 0) (hlt : off < 0x4000)
    (hv : s.readLoc l (Config.freeWord s.draws) = v) :
    s.hostAccess (.read 32 (s.cfg.base + off)) = .next { s with draws := s.draws + 1, reply := .data v } := by
  subst hv
  unfold State.hostAccess
  rw [State.bus_read hrst ((selectLoc_word s.cfg halign hlt).trans hl)]
  rfl

/-- A word write at an offset of the map, while idle (R55). -/
theorem State.hostAccess_write_word {s : State} {off : Nat} {l : Loc} (v : Word) (hrst : s.rst = false)
    (hidle : s.busy = false) (hl : locate s.cfg.bufSize off = .ok l) (halign : off % 4 = 0) (hlt : off < 0x4000)
    (hwritable : l.readOnly = false) :
    s.hostAccess (.write 32 (s.cfg.base + off) v) = .next { s.writeLoc l v with reply := .written } := by
  unfold State.hostAccess
  rw [State.bus_write hrst ((selectLoc_word s.cfg halign hlt).trans hl) hwritable,
    State.inputHazard_eq_false _ (.inl hidle)]
  rfl

end Sys2Proof.Machine
end

section
/-! Proofs: reads and writes while idle (O45, O47). -/

namespace Sys2Proof.Machine

/-- A one-bit register as a word. -/
theorem setWidth_ofBool (b : Bool) : (BitVec.ofBool b).setWidth 32 = if b then 1#32 else 0#32 := by
  cases b <;> rfl

/-- What a buffer word reads as while idle. -/
theorem State.hostAccess_read_buffer {s : State} (hrst : s.rst = false) (hidle : s.busy = false)
    (hcfg : s.cfg.wf = true) {base a : Nat} (hbase : base = 0x1000 ∨ base = 0x2000) (ha : a < s.cfg.bufSize)
    (halign : a % 4 = 0) :
    s.hostAccess (.read 32 (s.cfg.base + (base + a))) = .next
      { s with
        draws := s.draws + 1, reply := .data (bufferWord s.mem (base + a) (Config.freeWord s.draws)) } := by
  obtain ⟨-, -, -, hsize⟩ := (Config.wf_iff _).mp hcfg
  rcases hbase with rfl | rfl
  · exact State.hostAccess_read_word hrst (locate_ibuf ha hsize) (by omega) (by omega) rfl
  · exact State.hostAccess_read_word hrst (locate_obuf ha hsize) (by omega) (by omega)
      (by simp [State.readLoc, hidle, obufBase])

/-- Settles O45: for each offset its location in the map, and that location's value. -/
theorem idleReads : Obligations.IdleReads := by
  unfold Obligations.IdleReads
  intro s hrst hidle
  refine ⟨fun base a hbase hcfg ha halign => ?_, fun off v h => ?_⟩
  · rw [Nat.add_assoc]
    exact ⟨_, State.hostAccess_read_buffer hrst hidle hcfg hbase ha halign,
      fun j hj b hb => lane_bufferWord _ hj hb⟩
  · rcases h with ⟨rfl, rfl⟩ | ⟨rfl, rfl⟩ | ⟨rfl, rfl⟩ | ⟨rfl, rfl⟩ | ⟨rfl, rfl⟩ | ⟨rfl, rfl⟩ | ⟨rfl, rfl⟩ |
      ⟨rfl, rfl⟩ | ⟨w, hw, rfl, rfl⟩ | ⟨i, hi, w, hw, rfl, rfl⟩
    · exact State.hostAccess_read_word (l := .id) hrst rfl rfl (by decide) rfl
    · exact State.hostAccess_read_word (l := .cmd) hrst rfl rfl (by decide) rfl
    · exact State.hostAccess_read_word (l := .status) hrst rfl rfl (by decide) (by simp [State.readLoc, hidle])
    · exact State.hostAccess_read_word (l := .irqen) hrst rfl rfl (by decide) (setWidth_ofBool s.ie)
    · exact State.hostAccess_read_word (l := .olen) hrst rfl rfl (by decide) (by simp [State.readLoc, hidle])
    · exact State.hostAccess_read_word (l := .keylen) hrst rfl rfl (by decide) rfl
    · exact State.hostAccess_read_word (l := .key 0) hrst rfl rfl (by decide) rfl
    · exact State.hostAccess_read_word (l := .key 1) hrst rfl rfl (by decide) rfl
    · exact State.hostAccess_read_word hrst (locate_state _ hw) (by omega) (by omega)
        (by simp [State.readLoc, hidle, blockWord])
    · exact State.hostAccess_read_word hrst (locate_rk _ hi hw) (by omega) (by omega)
        (by simp [State.readLoc, hidle, blockWord])

/-- The record of R43 after a write to KEY0, and to KEY1. -/
theorem Written.setKey_zero (r : Written) : r.setKey 0 = { r with key0 := true } := by simp [Written.setKey]

theorem Written.setKey_one (r : Written) : r.setKey 1 = { r with key1 := true } := by simp [Written.setKey]

/-- Settles O47: for each offset its location in the map, and that location's write; the key by halves, STATE by
words. -/
theorem idleRegisterWrites : Obligations.IdleRegisterWrites := by
  unfold Obligations.IdleRegisterWrites
  intro s v hrst hidle
  have hwrite {off : Nat} {l : Loc} (hl : locate s.cfg.bufSize off = .ok l) (halign : off % 4 = 0)
      (hlt : off < 0x4000) (hwritable : l.readOnly = false) :=
    State.hostAccess_write_word v hrst hidle hl halign hlt hwritable
  refine ⟨?_, ?_, ?_, ⟨_, toNat_setKeyWord_zero s.key v, ?_⟩, ⟨_, toNat_setKeyWord_one s.key v, ?_⟩,
    fun w hw => ⟨setBlockWord s.stateReg w v, s.written.setState w, fun j hj => ?_, ?_, rfl, rfl⟩⟩
  · exact hwrite (l := .status) rfl rfl (by decide) rfl
  · exact hwrite (l := .irqen) rfl rfl (by decide) rfl
  · rw [hwrite (l := .keylen) rfl rfl (by decide) rfl,
      ← BitVec.setWidth_eq_extractLsb' (by decide : 8 ≤ 32)]
    rfl
  · rw [hwrite (l := .key 0) rfl rfl (by decide) rfl, ← Written.setKey_zero]
    rfl
  · rw [hwrite (l := .key 1) rfl rfl (by decide) rfl, ← Written.setKey_one]
    rfl
  · rw [blockByte_eq_lane _ hj, blockWord_setBlockWord _ _ _ (by omega)]
    split
    · rfl
    · exact (blockByte_eq_lane _ hj).symm
  · rw [Nat.add_assoc, hwrite (locate_state _ hw) (by omega) (by omega) rfl]
    rfl

end Sys2Proof.Machine
end

section
/-! Proofs: reset (O53, O54). -/

namespace Sys2Proof.Machine

/-- Settles O53: asserting reset is `afterReset`, and an access under it is not performed. -/
theorem resetOverridesEverything : Obligations.ResetOverridesEverything := by
  unfold Obligations.ResetOverridesEverything
  refine fun s => ⟨fun rest hp => ?_, fun a rest hrst hp => ?_⟩
  · rw [step_cons hp]
    rfl
  · rw [step_cons hp]
    exact State.hostAccess_rst (s := { s with pending := rest }) a hrst

/-- Settles O54: the fields by their reset values, the CMD write as any word write to an idle engine. -/
theorem resetLeavesTheEngineIdle : Obligations.ResetLeavesTheEngineIdle := by
  unfold Obligations.ResetLeavesTheEngineIdle
  refine ⟨rfl, rfl, rfl, rfl, rfl, rfl, rfl, rfl, rfl, rfl, rfl, Memory.read_nil, fun v => ?_⟩
  exact ⟨_, State.hostAccess_write_word (l := .cmd) v rfl rfl rfl rfl (by decide) rfl, rfl, rfl⟩

end Sys2Proof.Machine
end

section
/-! Proofs: the transitions of a step (O6, O8). -/

namespace Sys2Proof.Machine

/-- ENGINE's completion step of an idle engine (R202). -/
theorem State.engineStep_of_idle {s : State} (hidle : s.busy = false) : s.engineStep = .next s := by
  unfold State.engineStep
  rw [if_neg (by simp [hidle])]

/-- ENGINE's completion step with a legal command word latched (R203, R205). -/
theorem State.engineStep_of_decode {s : State} {i : Instr} (hbusy : s.busy = true) (hi : decode s.cmdl = .ok i) :
    s.engineStep = exec i s := by
  unfold State.engineStep
  rw [if_pos hbusy, hi]

/-- Settles O6: with nothing pending, or the completion event first, the step is ENGINE's completion step. -/
theorem stepRunsDecodedCommand : Obligations.StepRunsDecodedCommand := by
  unfold Obligations.StepRunsDecodedCommand
  refine fun s i hbusy hi _ => ⟨fun hp => ?_, fun rest hp => ?_⟩
  · rw [step_nil hp]
    exact State.engineStep_of_decode hbusy hi
  · rw [step_cons hp]
    exact State.engineStep_of_decode (s := { s with pending := rest }) hbusy hi

/-- Settles O8: each kind of event, and the idle engine, which has no step of its own. -/
theorem stepTakesTheNextEvent : Obligations.StepTakesTheNextEvent := by
  unfold Obligations.StepTakesTheNextEvent
  refine fun s => ⟨fun hidle hp => ?_, fun rest hidle hp => ?_, fun a rest hp => ?_, fun rest hp => ?_⟩
  · rw [step_nil hp]
    exact State.engineStep_of_idle hidle
  · rw [step_cons hp]
    exact State.engineStep_of_idle (s := { s with pending := rest }) hidle
  · rw [step_cons hp]
    rfl
  · rw [step_cons hp]
    rfl

end Sys2Proof.Machine
end

section
/-! Proofs: reads while a command runs (O46, O60). -/

namespace Sys2Proof.Machine

/-- The offset of a backed buffer word is one of an access inside the window. -/
theorem buffer_offset {base a size : Nat} (hbase : base % 4 = 0) (hwindow : base ≤ 0x3000) (ha : a < size)
    (hsize : size ≤ 4096) (halign : a % 4 = 0) : (base + a) % 4 = 0 ∧ base + a < 0x4000 :=
  ⟨by rw [Nat.add_mod, hbase, halign], Nat.add_lt_add_of_le_of_lt hwindow (ha.trans_le hsize)⟩

/-- What a backed IBUF word reads as, idle or not (R54, R265). -/
theorem State.hostAccess_read_ibuf {s : State} {a : Nat} (hrst : s.rst = false) (ha : a < s.cfg.bufSize)
    (hsize : s.cfg.bufSize ≤ 4096) (halign : a % 4 = 0) :
    s.hostAccess (.read 32 (s.cfg.base + (0x1000 + a))) = .next
      { s with
        draws := s.draws + 1, reply := .data (bufferWord s.mem (ibufBase + a) (Config.freeWord s.draws)) } := by
  obtain ⟨hoff, hlt⟩ := buffer_offset (base := 0x1000) rfl (by decide) ha hsize halign
  exact State.hostAccess_read_word hrst (locate_ibuf ha hsize) hoff hlt rfl

/-- Settles O46: for each offset its location in the map, and that location's value, which BUSY leaves alone but for
KV in STATUS. -/
theorem busyReadsThatAreExact : Obligations.BusyReadsThatAreExact := by
  unfold Obligations.BusyReadsThatAreExact
  refine fun s hrst hbusy => ⟨fun off v h => ?_, ⟨(Config.freeWord s.draws).getLsbD 4, ?_⟩,
    fun a ha hsize halign => ?_⟩
  · rcases h with ⟨rfl, rfl⟩ | ⟨rfl, rfl⟩ | ⟨rfl, rfl⟩ | ⟨rfl, rfl⟩ | ⟨rfl, rfl⟩ | ⟨rfl, rfl⟩
    · exact State.hostAccess_read_word (l := .id) hrst rfl rfl (by decide) rfl
    · exact State.hostAccess_read_word (l := .cmd) hrst rfl rfl (by decide) rfl
    · exact State.hostAccess_read_word (l := .irqen) hrst rfl rfl (by decide) (setWidth_ofBool s.ie)
    · exact State.hostAccess_read_word (l := .keylen) hrst rfl rfl (by decide) rfl
    · exact State.hostAccess_read_word (l := .key 0) hrst rfl rfl (by decide) rfl
    · exact State.hostAccess_read_word (l := .key 1) hrst rfl rfl (by decide) rfl
  · exact State.hostAccess_read_word (l := .status) hrst rfl rfl (by decide) (by simp [State.readLoc, hbusy])
  · rw [Nat.add_assoc]
    exact ⟨_, State.hostAccess_read_ibuf hrst ha hsize halign, fun j hj b hb => lane_bufferWord _ hj hb⟩

/-- Settles O60: each offset is one of the map's, and a read of any location answers. -/
theorem busyOutputReadsAnswerAndChangeNothing : Obligations.BusyOutputReadsAnswerAndChangeNothing := by
  unfold Obligations.BusyOutputReadsAnswerAndChangeNothing
  refine fun s hrst hbusy => ⟨⟨(Config.freeWord s.draws).setWidth 16, ?_⟩, fun off h => ?_⟩
  · exact State.hostAccess_read_word (l := .olen) hrst rfl rfl (by decide) (by simp [State.readLoc, hbusy])
  · rcases h with ⟨w, hw, rfl⟩ | ⟨i, hi, w, hw, rfl⟩ | ⟨a, ha, hsize, halign, rfl⟩
    · exact ⟨_, State.hostAccess_read_word hrst (locate_state _ hw) (Nat.add_mul_mod_self_left 0x030 4 w)
        (by omega) rfl⟩
    · exact ⟨_, State.hostAccess_read_word hrst (locate_rk _ hi hw) (by omega) (by omega) rfl⟩
    · obtain ⟨hoff, hlt⟩ := buffer_offset (base := 0x2000) rfl (by decide) ha hsize halign
      exact ⟨_, State.hostAccess_read_word hrst (locate_obuf ha hsize) hoff hlt rfl⟩

end Sys2Proof.Machine
end

section
/-! Proofs: an IBUF word written and read back (O48). -/

namespace Sys2Proof.Machine

/-- The bytes of a word, each in its lane (R53). -/
theorem wordBytes_getElem? (v : Word) {j : Nat} (hj : j < 4) : (wordBytes v)[j]? = some (lane v j) := by
  interval_cases j <;> rfl

/-- The bytes at an offset after a word is written there (R53, R55). -/
theorem Memory.read_writeWord_inside (m : Memory) (a : Nat) (v : Word) {j : Nat} (hj : j < 4) :
    Memory.read (Memory.writeBytes a (wordBytes v) m) (a + j) = some (lane v j) := by
  have hinside : a ≤ a + j ∧ a + j < a + (wordBytes v).length := ⟨Nat.le_add_right a j, Nat.add_lt_add_left hj a⟩
  rw [Memory.read_writeBytes, if_pos hinside, Nat.add_sub_cancel_left, wordBytes_getElem? v hj]

/-- A word write changes no byte outside its word. -/
theorem Memory.read_writeWord_outside (m : Memory) {a b : Nat} (v : Word) (hb : b < a ∨ a + 4 ≤ b) :
    Memory.read (Memory.writeBytes a (wordBytes v) m) b = Memory.read m b := by
  have houtside : ¬(a ≤ b ∧ b < a + (wordBytes v).length) := fun ⟨hlo, hhi⟩ =>
    hb.elim (fun hb => Nat.not_le_of_lt hb hlo) (Nat.not_le_of_lt hhi)
  rw [Memory.read_writeBytes, if_neg houtside]

/-- A buffer word reads as the word last written to it (R54). -/
theorem bufferWord_writeWord (m : Memory) (a : Nat) (v free : Word) :
    bufferWord (Memory.writeBytes a (wordBytes v) m) a free = v := by
  have hread {j : Nat} (hj : j < 4) := Memory.read_writeWord_inside m a v hj
  have h0 : Memory.read (Memory.writeBytes a (wordBytes v) m) a = some (lane v 0) := hread (j := 0) (by decide)
  unfold bufferWord
  rw [h0, hread (by decide), hread (by decide), hread (by decide)]
  exact wordOfLanes_lanes v

/-- Settles O48: the write is a word write to an idle engine, and the read finds the four lanes it stored. -/
theorem inputWordIsReadBack : Obligations.InputWordIsReadBack := by
  unfold Obligations.InputWordIsReadBack
  intro s a v hrst hidle hcfg ha halign
  obtain ⟨-, -, -, hsize⟩ := (Config.wf_iff _).mp hcfg
  obtain ⟨hoff, hlt⟩ := buffer_offset (base := 0x1000) rfl (by decide) ha hsize halign
  rw [Nat.add_assoc]
  refine ⟨Memory.writeBytes (ibufBase + a) (wordBytes v) s.mem, ?_, fun j hj => ?_, fun b hb => ?_, ?_⟩
  · exact State.hostAccess_write_word v hrst hidle (locate_ibuf ha hsize) hoff hlt rfl
  · exact Memory.read_writeWord_inside s.mem _ v hj
  · exact Memory.read_writeWord_outside s.mem v hb
  · rw [State.hostAccess_read_ibuf
      (s := { s with mem := Memory.writeBytes (ibufBase + a) (wordBytes v) s.mem, reply := .written })
      hrst ha hsize halign, bufferWord_writeWord]

end Sys2Proof.Machine
end

section
/-! Proofs: the address map's ranges, and exactly which accesses get a bus error (O49). -/

namespace Sys2Proof.Machine

/-- The offsets of the window with no location behind them: reserved ranges (R50) and unbacked buffer words (R58). -/
def UnmappedOffset (size off : Nat) : Prop :=
  (0x018 ≤ off ∧ off < 0x020) ∨ (0x028 ≤ off ∧ off < 0x030) ∨ (0x090 ≤ off ∧ off < 0x1000) ∨ 0x3000 ≤ off ∨
  (0x1000 ≤ off ∧ off < 0x2000 ∧ size ≤ off - 0x1000) ∨ (0x2000 ≤ off ∧ off < 0x3000 ∧ size ≤ off - 0x2000)

/-- The offsets of ID, OLEN, the RK file and OBUF (R57). -/
def ReadOnlyOffset (off : Nat) : Prop :=
  off < 0x004 ∨ (0x010 ≤ off ∧ off < 0x014) ∨ (0x040 ≤ off ∧ off < 0x090) ∨ (0x2000 ≤ off ∧ off < 0x3000)

/-- What an answer of the map at an offset says of the ranges the offset lies in. -/
def AgreesWithRanges (size off : Nat) : Except BusError Loc → Prop
  | .error _ => UnmappedOffset size off
  | .ok l => ¬UnmappedOffset size off ∧ (l.readOnly = true ↔ ReadOnlyOffset off)

/-- Two ranges of offsets, one of which ends before the other begins. -/
theorem not_in_range {off lo hi lo' hi' : Nat} (hlo : lo ≤ off) (hhi : off < hi) (h : hi ≤ lo' ∨ hi' ≤ lo) :
    ¬(lo' ≤ off ∧ off < hi') :=
  fun ⟨hlo', hhi'⟩ => h.elim (fun h => Nat.not_le_of_lt hhi (h.trans hlo')) fun h =>
    Nat.not_le_of_lt hhi' (h.trans hlo)

/-- A range outside the reserved ranges and, where it meets a buffer window, in the backed part of it. -/
theorem not_unmappedOffset {size off lo hi : Nat} (hlo : lo ≤ off) (hhi : off < hi)
    (hreserved : (hi ≤ 0x018 ∨ 0x020 ≤ lo) ∧ (hi ≤ 0x028 ∨ 0x030 ≤ lo) ∧ (hi ≤ 0x090 ∨ 0x1000 ≤ lo) ∧ hi ≤ 0x3000)
    (hibuf : (hi ≤ 0x1000 ∨ 0x2000 ≤ lo) ∨ off - 0x1000 < size)
    (hobuf : (hi ≤ 0x2000 ∨ 0x3000 ≤ lo) ∨ off - 0x2000 < size) : ¬UnmappedOffset size off := by
  obtain ⟨h₁, h₂, h₃, h₄⟩ := hreserved
  rintro (h | h | h | h | ⟨hge, hlt, h⟩ | ⟨hge, hlt, h⟩)
  · exact not_in_range hlo hhi h₁ h
  · exact not_in_range hlo hhi h₂ h
  · exact not_in_range hlo hhi h₃ h
  · exact Nat.not_le_of_lt hhi (h₄.trans h)
  · exact hibuf.elim (fun hout => not_in_range hlo hhi hout ⟨hge, hlt⟩) fun hback => Nat.not_le_of_lt hback h
  · exact hobuf.elim (fun hout => not_in_range hlo hhi hout ⟨hge, hlt⟩) fun hback => Nat.not_le_of_lt hback h

/-- A range below OBUF that holds neither ID, nor OLEN, nor a word of the RK file. -/
theorem not_readOnlyOffset {off lo hi : Nat} (hlo : lo ≤ off) (hhi : off < hi)
    (h : 0x004 ≤ lo ∧ (hi ≤ 0x010 ∨ 0x014 ≤ lo) ∧ (hi ≤ 0x040 ∨ 0x090 ≤ lo) ∧ hi ≤ 0x2000) : ¬ReadOnlyOffset off := by
  obtain ⟨h₁, h₂, h₃, h₄⟩ := h
  rintro (h | h | h | ⟨h, -⟩)
  · exact Nat.not_le_of_lt h (h₁.trans hlo)
  · exact not_in_range hlo hhi h₂ h
  · exact not_in_range hlo hhi h₃ h
  · exact Nat.not_le_of_lt hhi (h₄.trans h)

/-- A row of the map: what the offsets in the row select, and what the rest of the map says of the others. -/
theorem AgreesWithRanges.ite {size off : Nat} {p : Prop} [Decidable p] {x y : Except BusError Loc}
    (hx : p → AgreesWithRanges size off x) (hy : ¬p → AgreesWithRanges size off y) :
    AgreesWithRanges size off (if p then x else y) := by
  split
  · next h => exact hx h
  · next h => exact hy h

/-- The row of one register: the rest of the map begins at the next word. -/
theorem AgreesWithRanges.register {size off k : Nat} {x y : Except BusError Loc} (hlo : k ≤ off)
    (halign : off % 4 = k % 4) (hx : off < k + 4 → AgreesWithRanges size off x)
    (hy : k + 4 ≤ off → AgreesWithRanges size off y) : AgreesWithRanges size off (if off = k then x else y) :=
  .ite (fun h => hx (h ▸ Nat.lt_add_of_pos_right (by decide))) fun h =>
    hy (Nat.ModEq.add_le_of_lt halign.symm (Nat.lt_of_le_of_ne hlo (Ne.symm h)))

/-- The row of a range: the rest of the map begins where it ends. -/
theorem AgreesWithRanges.range {size off hi : Nat} {x y : Except BusError Loc}
    (hx : off < hi → AgreesWithRanges size off x) (hy : hi ≤ off → AgreesWithRanges size off y) :
    AgreesWithRanges size off (if off < hi then x else y) :=
  .ite hx fun h => hy (Nat.le_of_not_lt h)

/-- The address map against the ranges of R50, R57 and R58, row by row. -/
theorem locate_agreesWithRanges {size off : Nat} (halign : off % 4 = 0) :
    AgreesWithRanges size off (locate size off) := by
  have hreg {l : Loc} {lo hi : Nat} (hlo : lo ≤ off) (hhi : off < hi)
      (hreserved : (hi ≤ 0x018 ∨ 0x020 ≤ lo) ∧ (hi ≤ 0x028 ∨ 0x030 ≤ lo) ∧ hi ≤ 0x090)
      (hreadOnly : l.readOnly = true ↔ ReadOnlyOffset off) : AgreesWithRanges size off (.ok l) := by
    obtain ⟨h₁, h₂, hend⟩ := hreserved
    exact ⟨not_unmappedOffset hlo hhi ⟨h₁, h₂, .inl hend, hend.trans (by decide)⟩
      (.inl (.inl (hend.trans (by decide)))) (.inl (.inl (hend.trans (by decide)))), hreadOnly⟩
  have hwritable {l : Loc} {lo hi : Nat} (hl : l.readOnly = false) (hlo : lo ≤ off) (hhi : off < hi)
      (h : 0x004 ≤ lo ∧ (hi ≤ 0x010 ∨ 0x014 ≤ lo) ∧ (hi ≤ 0x040 ∨ 0x090 ≤ lo) ∧ hi ≤ 0x2000) :
      l.readOnly = true ↔ ReadOnlyOffset off :=
    iff_of_false (Bool.eq_false_iff.mp hl) (not_readOnlyOffset hlo hhi h)
  unfold locate
  refine .register (Nat.zero_le off) halign (fun hend => ?id) fun hcmd =>
    .register hcmd halign (fun hend => ?cmd) fun hstatus =>
    .register hstatus halign (fun hend => ?status) fun hirqen =>
    .register hirqen halign (fun hend => ?irqen) fun holen =>
    .register holen halign (fun hend => ?olen) fun hkeylen =>
    .register hkeylen halign (fun hend => ?keylen) fun hgap₁ =>
    .range (fun hend => .inl ⟨hgap₁, hend⟩) fun hkey =>
    .range (fun hend => ?key) fun hgap₂ =>
    .range (fun hend => .inr (.inl ⟨hgap₂, hend⟩)) fun hstate =>
    .range (fun hend => ?state) fun hrk =>
    .range (fun hend => ?rk) fun hgap₃ =>
    .range (fun hend => .inr (.inr (.inl ⟨hgap₃, hend⟩))) fun hibuf =>
    .range (fun hend => .ite (fun hback => ?ibuf) fun hback =>
      .inr (.inr (.inr (.inr (.inl ⟨hibuf, hend, Nat.le_of_not_lt hback⟩))))) fun hobuf =>
    .range (fun hend => .ite (fun hback => ?obuf) fun hback =>
      .inr (.inr (.inr (.inr (.inr ⟨hobuf, hend, Nat.le_of_not_lt hback⟩))))) fun hgap₄ =>
    .inr (.inr (.inr (.inl hgap₄)))
  case id => exact hreg (Nat.zero_le off) hend (by decide) (iff_of_true rfl (.inl hend))
  case cmd => exact hreg hcmd hend (by decide) (hwritable rfl hcmd hend (by decide))
  case status => exact hreg hstatus hend (by decide) (hwritable rfl hstatus hend (by decide))
  case irqen => exact hreg hirqen hend (by decide) (hwritable rfl hirqen hend (by decide))
  case olen => exact hreg holen hend (by decide) (iff_of_true rfl (.inr (.inl ⟨holen, hend⟩)))
  case keylen => exact hreg hkeylen hend (by decide) (hwritable rfl hkeylen hend (by decide))
  case key => exact hreg hkey hend (by decide) (hwritable rfl hkey hend (by decide))
  case state => exact hreg hstate hend (by decide) (hwritable rfl hstate hend (by decide))
  case rk => exact hreg hrk hend (by decide) (iff_of_true rfl (.inr (.inr (.inl ⟨hrk, hend⟩))))
  case ibuf =>
    exact ⟨not_unmappedOffset hibuf hend (by decide) (.inr hback) (.inl (by decide)),
      hwritable rfl hibuf hend (by decide)⟩
  case obuf =>
    exact ⟨not_unmappedOffset hobuf hend (by decide) (.inl (by decide)) (.inr hback),
      iff_of_true rfl (.inr (.inr (.inr ⟨hobuf, hend⟩)))⟩

/-- An access inside the window: its width, its alignment, then the map (R52, R56). -/
theorem selectLoc_window (c : Config) (width : Nat) {off : Nat} (hlt : off < 0x4000) :
    selectLoc c width (c.base + off) =
      if width ≠ 32 then .error .wrongWidth
      else if off % 4 ≠ 0 then .error .misaligned
      else locate c.bufSize off := by
  unfold selectLoc
  rw [if_neg (by omega), Nat.add_sub_cancel_left]

/-- The accesses inside the window that select no location (R56). -/
theorem selectLoc_eq_error_iff (c : Config) (width : Nat) {off : Nat} (hlt : off < 0x4000) :
    (∃ e, selectLoc c width (c.base + off) = .error e) ↔
      width ≠ 32 ∨ off % 4 ≠ 0 ∨ UnmappedOffset c.bufSize off := by
  rw [selectLoc_window c width hlt]
  by_cases hwidth : width = 32
  case neg =>
    rw [if_pos hwidth]
    exact ⟨fun _ => .inl hwidth, fun _ => ⟨_, rfl⟩⟩
  rw [if_neg (not_not.mpr hwidth)]
  by_cases halign : off % 4 = 0
  case neg =>
    rw [if_pos halign]
    exact ⟨fun _ => .inr (.inl halign), fun _ => ⟨_, rfl⟩⟩
  rw [if_neg (not_not.mpr halign)]
  have hmap := locate_agreesWithRanges (size := c.bufSize) halign
  cases hl : locate c.bufSize off with
  | error e =>
    rw [hl] at hmap
    exact ⟨fun _ => .inr (.inr hmap), fun _ => ⟨e, rfl⟩⟩
  | ok l =>
    obtain ⟨hmapped, -⟩ := hl ▸ hmap
    refine ⟨fun ⟨e, he⟩ => (by cases he), fun h => ?_⟩
    exact absurd ((h.resolve_left (not_not.mpr hwidth)).resolve_left (not_not.mpr halign)) hmapped

/-- The location that an access selects is read-only exactly in the ranges of R57. -/
theorem readOnly_iff_of_selectLoc {c : Config} {width off : Nat} {l : Loc} (hlt : off < 0x4000)
    (hl : selectLoc c width (c.base + off) = .ok l) : l.readOnly = true ↔ ReadOnlyOffset off := by
  rw [selectLoc_window c width hlt] at hl
  split_ifs at hl with hwidth halign
  have hmap := locate_agreesWithRanges (size := c.bufSize) (not_not.mp halign)
  obtain ⟨-, hreadOnly⟩ := hl ▸ hmap
  exact hreadOnly

/-- An access that selects no location (R56). -/
theorem State.bus_read_unselected {s : State} {width addr : Nat} {e : BusError} (hrst : s.rst = false)
    (hl : selectLoc s.cfg width addr = .error e) : s.bus (.read width addr) = (s, .error e) := by
  simp [State.bus, hrst, hl]

theorem State.bus_write_unselected {s : State} {width addr : Nat} {v : Word} {e : BusError} (hrst : s.rst = false)
    (hl : selectLoc s.cfg width addr = .error e) : s.bus (.write width addr v) = (s, .error e) := by
  simp [State.bus, hrst, hl]

/-- A write to a read-only location (R57). -/
theorem State.bus_write_readOnly {s : State} {width addr : Nat} {v : Word} {l : Loc} (hrst : s.rst = false)
    (hl : selectLoc s.cfg width addr = .ok l) (hreadOnly : l.readOnly = true) :
    s.bus (.write width addr v) = (s, .error .readOnly) := by
  simp [State.bus, hrst, hl, hreadOnly]

/-- A read gets a bus error exactly when it selects no location (R56). -/
theorem State.bus_read_error_iff {s : State} (width addr : Nat) (hrst : s.rst = false) :
    (∃ e, s.bus (.read width addr) = (s, .error e)) ↔ ∃ e, selectLoc s.cfg width addr = .error e := by
  refine ⟨fun ⟨e, he⟩ => ?_, fun ⟨e, hl⟩ => ⟨e, State.bus_read_unselected hrst hl⟩⟩
  cases hl : selectLoc s.cfg width addr with
  | error e' => exact ⟨e', rfl⟩
  | ok l =>
    rw [State.bus_read hrst hl] at he
    obtain ⟨-, hreply⟩ := Prod.mk.inj he
    cases hreply

/-- A write gets a bus error exactly when it selects no location or a read-only one (R56, R57). -/
theorem State.bus_write_error_iff {s : State} (width addr : Nat) (v : Word) (hrst : s.rst = false) :
    (∃ e, s.bus (.write width addr v) = (s, .error e)) ↔
      ∀ l, selectLoc s.cfg width addr = .ok l → l.readOnly = true := by
  cases hl : selectLoc s.cfg width addr with
  | error e => exact ⟨fun _ _ hl => (by cases hl), fun _ => ⟨e, State.bus_write_unselected hrst hl⟩⟩
  | ok l =>
    refine ⟨fun ⟨e, he⟩ l' hl' => ?_, fun h => ⟨_, State.bus_write_readOnly hrst hl (h l rfl)⟩⟩
    cases hl'
    by_contra hwritable
    rw [State.bus_write hrst hl (Bool.not_eq_true _ ▸ hwritable)] at he
    obtain ⟨-, hreply⟩ := Prod.mk.inj he
    cases hreply

/-- A bus error leaves the state as it was (R56). -/
theorem State.bus_error_keeps {s : State} {a : Access} {e : BusError} (h : (s.bus a).2 = .error e) :
    (s.bus a).1 = s := by
  rcases Bool.eq_false_or_eq_true s.rst with hrst | hrst
  · rw [State.bus_rst a hrst]
  cases a with
  | read width addr =>
    cases hl : selectLoc s.cfg width addr with
    | error e' => rw [State.bus_read_unselected hrst hl]
    | ok l =>
      rw [State.bus_read hrst hl] at h
      cases h
  | write width addr v =>
    cases hl : selectLoc s.cfg width addr with
    | error e' => rw [State.bus_write_unselected hrst hl]
    | ok l =>
      cases hreadOnly : l.readOnly with
      | true => rw [State.bus_write_readOnly hrst hl hreadOnly]
      | false =>
        rw [State.bus_write hrst hl hreadOnly] at h
        cases h

/-- A bus error is a HOST fault (U7, log 6). -/
theorem State.hostAccess_of_bus_error {s : State} {a : Access} {e : BusError} (h : (s.bus a).2 = .error e) :
    s.hostAccess a = .fault (.busError e) := by
  unfold State.hostAccess
  rw [show s.bus a = ((s.bus a).1, .error e) from Prod.ext rfl h]

/-- Settles O49: the bus refuses what selects no location, and writes to the read-only ranges. -/
theorem busErrorsAreExactlyTheMalformedAccesses : Obligations.BusErrorsAreExactlyTheMalformedAccesses := by
  unfold Obligations.BusErrorsAreExactlyTheMalformedAccesses
  intro s width off v hrst _ hlt
  have hbad := selectLoc_eq_error_iff s.cfg width hlt
  refine ⟨hbad.symm.trans (State.bus_read_error_iff _ _ hrst).symm, ?_,
    fun a e h => ⟨State.bus_error_keeps h, State.hostAccess_of_bus_error h⟩⟩
  refine (or_congr_left hbad).symm.trans (Iff.trans ?_ (State.bus_write_error_iff _ _ v hrst).symm)
  cases hl : selectLoc s.cfg width (s.cfg.base + off) with
  | error e => exact ⟨fun _ _ hl => (by cases hl), fun _ => .inl ⟨e, rfl⟩⟩
  | ok l =>
    have hreadOnly := readOnly_iff_of_selectLoc hlt hl
    refine ⟨fun h l' hl' => ?_, fun h => .inr (hreadOnly.mp (h l rfl))⟩
    cases hl'
    rcases h with ⟨e, he⟩ | h
    · cases he
    · exact hreadOnly.mpr h

end Sys2Proof.Machine
end

section
/-! Proofs: HOST writes while a command runs (O51). -/

namespace Sys2Proof.Machine

/-- No command input is read-only (R57, R264). -/
theorem Loc.readOnly_of_commandInput {l : Loc} (h : l.commandInput = true) : l.readOnly = false := by
  cases l with
  | keylen | key | state | ibuf => rfl
  | id | cmd | status | irqen | olen | rk | obuf => cases h

/-- The aligned offsets of a range of `n` words. -/
theorem exists_word_of_range {lo n off : Nat} (hbase : lo % 4 = 0) (halign : off % 4 = 0) (hlo : lo ≤ off)
    (hhi : off < lo + 4 * n) : ∃ w < n, off = lo + 4 * w := by
  have hdvd : 4 ∣ off - lo := (Nat.modEq_iff_dvd' hlo).mp (hbase.trans halign.symm)
  refine ⟨(off - lo) / 4, Nat.div_lt_of_lt_mul (Nat.sub_lt_left_of_lt_add hlo hhi), ?_⟩
  rw [Nat.mul_div_cancel' hdvd, Nat.add_sub_cancel' hlo]

/-- KEY0 and KEY1 in the address map (R50). -/
theorem locate_key (size : Nat) {w : Nat} (hw : w < 2) : locate size (0x020 + 4 * w) = .ok (.key w) := by
  interval_cases w <;> rfl

/-- The command inputs in the address map: KEYLEN, KEY, STATE and the backed part of IBUF (R50, R264). -/
theorem exists_commandInput_at {size off : Nat} (hsize : size ≤ 4096) (halign : off % 4 = 0)
    (h : off = 0x014 ∨ (0x020 ≤ off ∧ off < 0x028) ∨ (0x030 ≤ off ∧ off < 0x040) ∨
      (0x1000 ≤ off ∧ off < 0x1000 + size)) :
    off < 0x4000 ∧ ∃ l, locate size off = .ok l ∧ l.commandInput = true := by
  rcases h with rfl | ⟨hlo, hhi⟩ | ⟨hlo, hhi⟩ | ⟨hlo, hhi⟩
  · exact ⟨by decide, .keylen, rfl, rfl⟩
  · refine ⟨hhi.trans (by decide), ?_⟩
    obtain ⟨w, hw, rfl⟩ := exists_word_of_range (n := 2) rfl halign hlo hhi
    exact ⟨.key w, locate_key size hw, rfl⟩
  · refine ⟨hhi.trans (by decide), ?_⟩
    obtain ⟨w, hw, rfl⟩ := exists_word_of_range (n := 4) rfl halign hlo hhi
    exact ⟨.state w, locate_state size hw, rfl⟩
  · refine ⟨hhi.trans_le ((Nat.add_le_add_left hsize _).trans (by decide)), ?_⟩
    obtain ⟨a, rfl⟩ := Nat.exists_eq_add_of_le hlo
    exact ⟨.ibuf a, locate_ibuf (Nat.lt_of_add_lt_add_left hhi) hsize, rfl⟩

/-- What a word write to a writable location does while a command runs: a command input makes it a HOST fault
(R264, log 7), any other location has its effect of R55. -/
theorem State.hostAccess_write_word_busy {s : State} {off : Nat} {l : Loc} (v : Word) (hrst : s.rst = false)
    (hbusy : s.busy = true) (hl : locate s.cfg.bufSize off = .ok l) (halign : off % 4 = 0) (hlt : off < 0x4000)
    (hwritable : l.readOnly = false) :
    s.hostAccess (.write 32 (s.cfg.base + off) v) =
      if l.commandInput then .fault .inputWriteWhileBusy else .next { s.writeLoc l v with reply := .written } := by
  have hsel := (selectLoc_word s.cfg halign hlt).trans hl
  have hhazard : s.inputHazard (.write 32 (s.cfg.base + off) v) = l.commandInput := by
    simp [State.inputHazard, hsel, hbusy, hrst]
  unfold State.hostAccess
  rw [State.bus_write hrst hsel hwritable, hhazard]

/-- Settles O51: each offset by its location in the map, and whether that is a command input. -/
theorem inputWritesWhileBusyFault : Obligations.InputWritesWhileBusyFault := by
  unfold Obligations.InputWritesWhileBusyFault
  intro s v off hrst hbusy hcfg
  obtain ⟨-, -, -, hsize⟩ := (Config.wf_iff _).mp hcfg
  refine ⟨fun halign h => ?_, ?_, ?_⟩
  · obtain ⟨hlt, l, hl, hinput⟩ := exists_commandInput_at hsize halign h
    rw [State.hostAccess_write_word_busy v hrst hbusy hl halign hlt (Loc.readOnly_of_commandInput hinput),
      if_pos hinput]
  · exact State.hostAccess_write_word_busy (l := .status) v hrst hbusy rfl rfl (by decide) rfl
  · exact State.hostAccess_write_word_busy (l := .irqen) v hrst hbusy rfl rfl (by decide) rfl

end Sys2Proof.Machine
end

section
/-! Proofs: the layers, rounds and block transforms undone in the other order, and the source's keyed block
functions on any byte sequences (O15, O16). -/

namespace Sys2Proof.Machine

theorem sbox_invSbox (y : Nibble) : sbox (invSbox y) = y := by
  revert y; decide

/-- A nibble table undone by another is undone by it on both nibbles of a byte (R102). -/
theorem mapNibbles_cancel {f g : Nibble → Nibble} (h : ∀ x, f (g x) = x) (x : Byte) :
    mapNibbles f (mapNibbles g x) = x := by
  unfold mapNibbles
  rw [BitVec.extractLsb'_append_eq_left, BitVec.extractLsb'_append_eq_right, h, h, nibbles_append]

/-- The substitution layer undoes the inverse substitution layer (R103). -/
theorem sub_isub (b : Block) : sub (isub b) = b := by
  refine eq_of_blockByte_eq fun j hj => ?_
  rw [sub, blockByte_mapBytes _ _ hj, isub, blockByte_mapBytes _ _ hj, mapNibbles_cancel sbox_invSbox]

/-- Every position of a block is where the P wiring takes some position: 88 is the inverse of 13 modulo 127
(R105). -/
theorem exists_permTab_eq {p : Nat} (hp : p < 128) : ∃ i < 128, permTab i = p := by
  refine ⟨ipermTab p, ?_, ?_⟩
  · unfold ipermTab
    split <;> omega
  · unfold permTab ipermTab
    split <;> split <;> omega

/-- The permutation layer undoes the inverse permutation layer (R107). -/
theorem perm_iperm (b : Block) : perm (iperm b) = b := by
  refine eq_of_blockBit_eq fun p hp => ?_
  obtain ⟨i, hi, rfl⟩ := exists_permTab_eq hp
  rw [blockBit_perm _ hi, blockBit_iperm _ hi]

/-- The round undoes the inverse round under the same round key (R142). -/
theorem forwardRound_inverseRound (s rk : Block) : forwardRound (inverseRound s rk) rk = s := by
  rw [forwardRound, inverseRound, BitVec.xor_assoc, BitVec.xor_self, BitVec.xor_zero, sub_isub, perm_iperm]

/-- Block encryption undoes block decryption under the same round keys (R150). -/
theorem encryptBlockRK_decryptBlockRK (c : Block) (rk : RoundKeys) :
    encryptBlockRK (decryptBlockRK c rk) rk = c := by
  simp only [encryptBlockRK, decryptBlockRK, List.foldl_cons, List.foldl_nil, forwardRound_inverseRound]
  rw [BitVec.xor_assoc, BitVec.xor_self, BitVec.xor_zero]

/-- Settles O15: the layers are undone one by one, in the reverse order. -/
theorem roundsAreMutualInverses : Obligations.RoundsAreMutualInverses := by
  unfold Obligations.RoundsAreMutualInverses
  exact fun s rk => ⟨inverseRound_forwardRound s rk, forwardRound_inverseRound s rk⟩

/-- The key schedule on 8 bytes (R112). -/
theorem expandBytes_of_length (rc : RoundKeys) {key : List Byte} (h : key.length = 8) :
    expandBytes rc key = .ok (expand rc (int64 key)) := by
  rw [expandBytes, if_neg (not_not.mpr h)]

/-- The key schedule on any other number of bytes (R112). -/
theorem expandBytes_of_badLength (rc : RoundKeys) {key : List Byte} (h : key.length ≠ 8) :
    expandBytes rc key = .error .invalidKeyLength := by
  rw [expandBytes, if_pos h]

/-- The keyed block functions on 16 bytes, once the key schedule has answered (R146). -/
theorem blockFunctions_of_expand {rc : RoundKeys} {b key : List Byte} {rk : RoundKeys} (hb : b.length = 16)
    (hrk : expandBytes rc key = .ok rk) :
    encryptBlock rc b key = .ok (blockBytes (encryptBlockRK (blockOfBytes b) rk)) ∧
      decryptBlock rc b key = .ok (blockBytes (decryptBlockRK (blockOfBytes b) rk)) := by
  simp [encryptBlock, decryptBlock, hb, hrk]

/-- An error of the key schedule is the keyed block functions' error on 16 bytes (R146). -/
theorem blockFunctions_of_expand_error {rc : RoundKeys} {b key : List Byte} {e : ErrCode} (hb : b.length = 16)
    (he : expandBytes rc key = .error e) :
    encryptBlock rc b key = .error e ∧ decryptBlock rc b key = .error e := by
  simp [encryptBlock, decryptBlock, hb, he]

/-- The keyed block functions check the block length before the key (R146). -/
theorem blockFunctions_of_badLength (rc : RoundKeys) {b : List Byte} (key : List Byte) (hb : b.length ≠ 16) :
    encryptBlock rc b key = .error .invalidBlockLength ∧ decryptBlock rc b key = .error .invalidBlockLength :=
  ⟨if_pos hb, if_pos hb⟩

/-- Settles O16: on legal lengths both functions are their RK forms on the block of the bytes, which undo each
other. -/
theorem blockTransformsRoundTrip : Obligations.BlockTransformsRoundTrip := by
  unfold Obligations.BlockTransformsRoundTrip
  intro rc b key
  refine ⟨fun hb hkey => ?_, blockFunctions_of_badLength rc key,
    fun hb hkey => blockFunctions_of_expand_error hb (expandBytes_of_badLength rc hkey)⟩
  have hrk := expandBytes_of_length rc hkey
  obtain ⟨henc, hdec⟩ := blockFunctions_of_expand hb hrk
  refine ⟨⟨_, hrk, henc, hdec⟩, ⟨_, henc, blockBytes_length _, ?_⟩, ⟨_, hdec, blockBytes_length _, ?_⟩⟩
  · obtain ⟨-, hback⟩ := blockFunctions_of_expand (blockBytes_length _) hrk
    rw [hback, blockOfBytes_blockBytes, decryptBlockRK_encryptBlockRK, blockBytes_blockOfBytes hb]
  · obtain ⟨hback, -⟩ := blockFunctions_of_expand (blockBytes_length _) hrk
    rw [hback, blockOfBytes_blockBytes, encryptBlockRK_decryptBlockRK, blockBytes_blockOfBytes hb]

end Sys2Proof.Machine
end

section
/-! Proofs: the round commands' next states (O26), and the block commands' length errors (O31). -/

namespace Sys2Proof.Machine

/-- Settles O26: with KV = 1 and a legal index each command is its function of STATE and RK[i]
(`State.onRoundKey_of_kv`). -/
theorem roundCommandsReplaceState : Obligations.RoundCommandsReplaceState := by
  unfold Obligations.RoundCommandsReplaceState
  intro s i hkv
  refine ⟨fun hi => ?_, fun hi => ?_, fun hi => ?_⟩
  · exact congrArg _ (State.onRoundKey_of_kv hkv (BitVec.le_def.mpr hi) fun b rk => b ^^^ rk)
  · exact congrArg _ (State.onRoundKey_of_kv hkv (BitVec.le_def.mpr hi) forwardRound)
  · exact congrArg _ (State.onRoundKey_of_kv hkv (BitVec.le_def.mpr hi) inverseRound)

/-- A block command on a block length other than 16 (R158, R159). -/
theorem State.blockCommand_of_badBlockLength (s : State) {len : BitVec 16} (hlen : len.toNat ≠ 16)
    (f : Block → RoundKeys → Block) : s.blockCommand len f = .next (s.failOutput .invalidBlockLength) := by
  rw [State.blockCommand, if_pos hlen]

/-- A block command on a legal block length and a key length other than 8 (R158, R159). -/
theorem State.blockCommand_of_badKeyLength {s : State} {len : BitVec 16} (hlen : len.toNat = 16)
    (hk : s.keylen ≠ 8#8) (f : Block → RoundKeys → Block) :
    s.blockCommand len f = .next (s.failOutput .invalidKeyLength) := by
  rw [State.blockCommand, if_neg (not_not.mpr hlen), if_pos hk]

/-- Settles O31: both commands are `State.blockCommand`, and failing is delivering no byte
(`State.failOutput_eq_deliver_nil`). -/
theorem blockCommandsFailOnLengths : Obligations.BlockCommandsFailOnLengths := by
  unfold Obligations.BlockCommandsFailOnLengths
  intro s len e he
  refine ⟨_, outputDelivered_deliver s [], ?_⟩
  rcases he with ⟨hlen, rfl⟩ | ⟨hlen, hk, rfl⟩
  · exact ⟨s.blockCommand_of_badBlockLength hlen _, s.blockCommand_of_badBlockLength hlen _⟩
  · exact ⟨State.blockCommand_of_badKeyLength hlen hk _, State.blockCommand_of_badKeyLength hlen hk _⟩

end Sys2Proof.Machine
end

section
/-! Proofs: the error effect of every command (O41). -/

namespace Sys2Proof.Machine

/-- How a command that ends with an error made its last state (R226): by the completion fields alone, by giving up
the output as well, or, for DEC_MSG's INVALID_PADDING, after the key-schedule step (R204). -/
inductive Failed (s : State) : Instr → State → Prop
  | registers {i : Instr} (hi : writesOlen i = false) (c : ErrCode) : Failed s i (s.fail c)
  | output {i : Instr} (hi : writesOlen i = true) (c : ErrCode)
      (hc : ¬((∃ len, i = .decMsg len) ∧ c = .invalidPadding)) : Failed s i (s.failOutput c)
  | padding (len : BitVec 16) : Failed s (.decMsg len) (s.expandKey.failOutput .invalidPadding)

/-- An error of a block command (R158, R159). -/
theorem Failed.blockCommand {i : Instr} {s t : State} {len : BitVec 16} {f : Block → RoundKeys → Block}
    (h : s.blockCommand len f = .next t) (he : t.errcode ≠ .noError) (hi : writesOlen i = true) :
    Failed s i t := by
  rcases State.blockCommand_next h with ⟨-, rfl⟩ | ⟨-, -, rfl⟩ | ⟨-, -, d, -, rfl⟩
  · exact .output hi _ (by simp)
  · exact .output hi _ (by simp)
  · exact absurd rfl he

/-- An error of a command on a round key (R155-R157). -/
theorem Failed.onRoundKey {i : Instr} {s : State} {top ridx : BitVec 3} {f : Block → Block → Block}
    (he : (s.onRoundKey top ridx f).errcode ≠ .noError) (hi : writesOlen i = false) :
    Failed s i (s.onRoundKey top ridx f) := by
  rcases State.onRoundKey_cases s top ridx f with ⟨-, h⟩ | ⟨-, -, h⟩ | ⟨-, -, h⟩ <;> rw [h] at he ⊢
  · exact .registers hi _
  · exact .registers hi _
  · exact absurd rfl he

/-- Every command that ends with an error ends in one of these forms. -/
theorem exec_failed {i : Instr} {s t : State} (h : exec i s = .next t) (he : t.errcode ≠ .noError) :
    Failed s i t := by
  cases i with
  | nop | sub | isub | perm | iperm =>
    obtain rfl := Host.Outcome.next.inj h
    exact absurd rfl he
  | expand =>
    rcases execExpand_next h with ⟨-, rfl⟩ | ⟨-, rfl⟩
    · exact .registers rfl _
    · exact absurd rfl he
  | addrk | round | iround =>
    obtain rfl := Host.Outcome.next.inj h
    exact .onRoundKey he rfl
  | encBlk | decBlk => exact .blockCommand h he rfl
  | encMsg =>
    rcases execEncMsg_next h with ⟨-, rfl⟩ | ⟨-, -, rfl⟩ | ⟨-, -, d, -, rfl⟩
    · exact .output rfl _ (by simp)
    · exact .output rfl _ (by simp)
    · exact absurd rfl he
  | decMsg len =>
    rcases execDecMsg_next h with
      ⟨-, rfl⟩ | ⟨-, -, rfl⟩ | ⟨-, -, -, rfl⟩ | ⟨-, -, -, d, -, ⟨-, rfl⟩ | ⟨r, -, rfl⟩⟩
    · exact .output rfl _ (by simp)
    · exact .output rfl _ (by simp)
    · exact .output rfl _ (by simp)
    · exact .padding len
    · exact absurd rfl he
  | pad =>
    rcases execPad_next h with ⟨-, rfl⟩ | ⟨-, d, -, rfl⟩
    · exact .output rfl _ (by simp)
    · exact absurd rfl he
  | unpad =>
    rcases execUnpad_next h with ⟨-, rfl⟩ | ⟨-, -, -, rfl⟩ | ⟨-, -, -, d, -, ⟨-, rfl⟩ | ⟨r, -, rfl⟩⟩
    · exact .output rfl _ (by simp)
    · exact .output rfl _ (by simp)
    · exact .output rfl _ (by simp)
    · exact absurd rfl he

/-- An error of an OLEN-writing command leaves OLEN 0 and OBUF without a value. -/
theorem Failed.output_cleared {i : Instr} {s t : State} (h : Failed s i t) (hi : writesOlen i = true) :
    t.olen = 0#16 ∧ outputDelivered s.mem t.mem [] := by
  cases h with
  | registers hregs => rw [hregs] at hi; cases hi
  | output | padding => exact ⟨rfl, outputDelivered_deliver s []⟩

theorem Failed.stateReg {i : Instr} {s t : State} (h : Failed s i t) : t.stateReg = s.stateReg := by
  cases h <;> rfl

/-- Before its INVALID_PADDING a DEC_MSG has computed the round keys (R204). -/
theorem Failed.roundKeys_expanded {i : Instr} {s t : State} (h : Failed s i t)
    (hi : (∃ len, i = .decMsg len) ∧ t.errcode = .invalidPadding) :
    t.rk = expand s.cfg.rc s.key ∧ t.kv = true := by
  cases h with
  | registers hregs => obtain ⟨⟨len, rfl⟩, -⟩ := hi; cases hregs
  | output _ _ hc => exact absurd hi hc
  | padding => exact ⟨rfl, rfl⟩

theorem Failed.roundKeys_kept {i : Instr} {s t : State} (h : Failed s i t)
    (hi : ¬((∃ len, i = .decMsg len) ∧ t.errcode = .invalidPadding)) : t.rk = s.rk ∧ t.kv = s.kv := by
  cases h with
  | registers | output => exact ⟨rfl, rfl⟩
  | padding len => exact absurd ⟨⟨len, rfl⟩, rfl⟩ hi

/-- An error writes no byte below OBUF, whatever the parameters are. -/
theorem Failed.read_below {i : Instr} {s t : State} (h : Failed s i t) {a : Nat} (ha : a < obufBase) :
    Memory.read t.mem a = Memory.read s.mem a := by
  cases h with
  | registers => rfl
  | output | padding => exact s.read_deliver_outside (d := []) (Nat.zero_le _) (.inl ha)

/-- Settles O41: the three forms of `Failed` for what an error writes, and the frame and STATUS of every completion. -/
theorem errorEffectOfEveryCommand : Obligations.ErrorEffectOfEveryCommand := by
  unfold Obligations.ErrorEffectOfEveryCommand
  intro i s t h he
  have hf := exec_failed h he
  obtain ⟨hkey, hkeylen, hie, hovr, -⟩ := (exec_completed h).frame
  obtain ⟨hbusy, hdone, herr⟩ := (exec_completed h).status
  exact ⟨hf.output_cleared, exec_keeps_output h, hf.stateReg, hf.roundKeys_expanded, hf.roundKeys_kept,
    hkey, hkeylen, hie, hovr, fun a ha => hf.read_below ha, hbusy, hdone, herr.trans (decide_eq_true he)⟩

end Sys2Proof.Machine
end

section
/-! Proofs: the interrupt output (O52). -/

namespace Sys2Proof.Machine

theorem State.irq_eq (s : State) : s.irq = (s.ie && s.done) := rfl

/-- Without DONE there is no interrupt, whatever IE is (R232). -/
theorem State.irq_of_not_done {s : State} (h : s.done = false) : s.irq = false := by
  rw [State.irq_eq, h, Bool.and_false]

/-- Without IE there is no interrupt: it masks DONE (R232). -/
theorem State.irq_of_not_ie {s : State} (h : s.ie = false) : s.irq = false := by
  rw [State.irq_eq, h, Bool.false_and]

/-- A completion sets DONE and keeps IE, so the interrupt output becomes IE (R232). -/
theorem Completed.irq {s t : State} (h : Completed s t) : t.irq = s.ie := by
  obtain ⟨-, -, hie, -⟩ := h.frame
  obtain ⟨-, hdone, -⟩ := h.status
  rw [State.irq_eq, hie, hdone, Bool.and_true]

/-- A CMD write while idle is accepted (R200). -/
theorem State.issue_of_idle {s : State} (hidle : s.busy = false) (v : Word) : s.issue v = s.accept v := by
  rw [State.issue, hidle, if_neg Bool.false_ne_true]

/-- The next state, if there is one, of a word write to a writable location, idle or not (R55). -/
theorem State.hostAccess_write_word_next {s t : State} {off : Nat} {l : Loc} {v : Word}
    (h : s.hostAccess (.write 32 (s.cfg.base + off) v) = .next t) (hrst : s.rst = false)
    (hl : locate s.cfg.bufSize off = .ok l) (halign : off % 4 = 0) (hlt : off < 0x4000)
    (hwritable : l.readOnly = false) : t = { s.writeLoc l v with reply := .written } := by
  cases hbusy : s.busy with
  | false =>
    rw [State.hostAccess_write_word v hrst hbusy hl halign hlt hwritable] at h
    exact (Host.Outcome.next.inj h).symm
  | true =>
    rw [State.hostAccess_write_word_busy v hrst hbusy hl halign hlt hwritable] at h
    split at h
    · cases h
    · exact (Host.Outcome.next.inj h).symm

/-- Settles O52: a STATUS write, an accepted command and reset clear DONE; an IRQEN write clears IE alone. -/
theorem interruptFollowsDoneAndEnable : Obligations.InterruptFollowsDoneAndEnable := by
  unfold Obligations.InterruptFollowsDoneAndEnable
  refine ⟨State.irq_eq, fun i s t h => (exec_completed h).irq,
    fun s t v hrst => ⟨fun hv h => ?_, fun hidle h => ?_, fun hv h => ?_⟩,
    fun s => State.irq_of_not_done s.afterReset_done⟩
  · obtain rfl := State.hostAccess_write_word_next (l := .status) h hrst rfl rfl (by decide) rfl
    have hdone : (s.clearStatus v).done = false := by simp [hv]
    exact State.irq_of_not_done hdone
  · obtain rfl := State.hostAccess_write_word_next (l := .cmd) h hrst rfl rfl (by decide) rfl
    have hdone : (s.issue v).done = false := by rw [State.issue_of_idle hidle, State.accept_done]
    exact State.irq_of_not_done hdone
  · obtain rfl := State.hostAccess_write_word_next (l := .irqen) h hrst rfl rfl (by decide) rfl
    exact ⟨State.irq_of_not_ie hv, rfl⟩

end Sys2Proof.Machine
end
